-- ==== Sys2Proof/Word.lean ====
section
/-! DEFINITION. The word types of the LS-8 core (00_scope.md R8): an 8-bit byte, which is also a general register, an opcode, an
operand byte and the stack pointer, and the 9-bit program counter. -/

namespace Sys2Proof

/-- A byte: a memory cell, a general register, an opcode, an operand byte, the stack pointer (00_scope.md R8: `XLEN`, `SP` width,
opcode width and operand byte width are all 8 bits). -/
abbrev Byte := BitVec 8

/-- The program counter: 9 bits (10_state.md R26). -/
abbrev PcWord := BitVec 9

/-- The byte `v & 0xFF` (00_scope.md R10, 10_state.md R22). -/
abbrev lowByte (v : Nat) : Byte := BitVec.ofNat 8 v

end Sys2Proof
end

