-- ==== Sys2Proof/Syntax.lean ====
section
/-! DEFINITION. The instructions: one constructor per row of spec/opcode_table.json. A row fixes the opcode byte alone ("match_applies_to:
byte0"); the operand bytes are not part of what the decoder reads, each handler reads its own from memory (30_encoding.md R79; Log 3).
So a constructor is a handler of the opcode table (30_encoding.md R72, R75) and carries no operand. An opcode together with its operand
bytes, as it stands in memory or in an assembler line, is `Instruction` below. -/

namespace Sys2Proof

/-- The nine defined instructions (30_encoding.md R75). -/
inductive Instr where
  /-- LDI: load an immediate byte into a register (42_load_print_halt.md R130). -/
  | ldi
  /-- PRN: emit a register's value on the output port (42_load_print_halt.md R131). -/
  | prn
  /-- HLT: halt the machine (42_load_print_halt.md R132). -/
  | hlt
  /-- ADD: add two registers (41_alu.md R117). -/
  | add
  /-- MUL: multiply two registers (41_alu.md R118). -/
  | mul
  /-- POP: pop the top stack byte into a register (43_stack.md R140). -/
  | pop
  /-- PUSH: push a register's value onto the stack (43_stack.md R141). -/
  | push
  /-- RET: return to the address on top of the stack (44_call_return.md R150). -/
  | ret
  /-- CALL: push the return address and jump to the address held in a register (44_call_return.md R151). -/
  | call
  deriving DecidableEq, Repr

/-- An instruction as it stands in memory: one opcode, then its operand bytes at increasing addresses (30_encoding.md R70, R71). -/
structure Instruction where
  /-- The row of the opcode table. -/
  op : Instr
  /-- The operand bytes, the byte at `pc + 1` first. -/
  operands : List Byte
  deriving DecidableEq, Repr

/-- `LDI Rr, imm` (30_encoding.md R80). -/
abbrev Instruction.ldi (r imm : Byte) : Instruction := ⟨.ldi, [r, imm]⟩
/-- `PRN Rr` (30_encoding.md R80). -/
abbrev Instruction.prn (r : Byte) : Instruction := ⟨.prn, [r]⟩
/-- `HLT` (30_encoding.md R80). -/
abbrev Instruction.hlt : Instruction := ⟨.hlt, []⟩
/-- `ADD Ra, Rb` (30_encoding.md R80). -/
abbrev Instruction.add (ra rb : Byte) : Instruction := ⟨.add, [ra, rb]⟩
/-- `MUL Ra, Rb` (30_encoding.md R80). -/
abbrev Instruction.mul (ra rb : Byte) : Instruction := ⟨.mul, [ra, rb]⟩
/-- `POP Rr` (30_encoding.md R80). -/
abbrev Instruction.pop (r : Byte) : Instruction := ⟨.pop, [r]⟩
/-- `PUSH Rr` (30_encoding.md R80). -/
abbrev Instruction.push (r : Byte) : Instruction := ⟨.push, [r]⟩
/-- `RET` (30_encoding.md R80). -/
abbrev Instruction.ret : Instruction := ⟨.ret, []⟩
/-- `CALL Rr` (30_encoding.md R80). -/
abbrev Instruction.call (r : Byte) : Instruction := ⟨.call, [r]⟩

end Sys2Proof
end

