-- ==== Sys2Proof/WellFormed.lean ====
section
/-! DEFINITION. The formats of 30_encoding.md R71 and the one check on an instruction: it has exactly the operand bytes of its format.
Every operand value is legal at decode (30_encoding.md R73, R77), so there is no check on a value. -/

namespace Sys2Proof

/-- What an operand byte holds (30_encoding.md R71). -/
inductive OperandKind where
  /-- A register index (30_encoding.md R73). -/
  | reg
  /-- An immediate (30_encoding.md R74). -/
  | imm
  deriving DecidableEq, Repr

/-- The instruction formats (30_encoding.md R71). -/
inductive Format where
  /-- The opcode alone. -/
  | F1
  /-- The opcode and a register index. -/
  | F2R
  /-- The opcode and two register indices. -/
  | F3RR
  /-- The opcode, a register index and an immediate. -/
  | F3RI
  deriving DecidableEq, Repr

/-- The operand bytes of a format, in the order they stand in memory (30_encoding.md R71). -/
def Format.operands : Format → List OperandKind
  | .F1 => []
  | .F2R => [.reg]
  | .F3RR => [.reg, .reg]
  | .F3RI => [.reg, .imm]

/-- The format of each instruction (30_encoding.md R71, R75). -/
def Instr.format : Instr → Format
  | .ldi => .F3RI
  | .prn => .F2R
  | .hlt => .F1
  | .add => .F3RR
  | .mul => .F3RR
  | .pop => .F2R
  | .push => .F2R
  | .ret => .F1
  | .call => .F2R

/-- `N`, the number of operand bytes (30_encoding.md R70, R71). -/
def Instr.operandCount (i : Instr) : Nat := i.format.operands.length

/-- An instruction is well formed when it has the operand bytes of its format, no fewer and no more (30_encoding.md R71). -/
def Instruction.wellFormed (a : Instruction) : Bool := a.operands.length == a.op.operandCount

end Sys2Proof
end

