-- ==== Sys2Proof/Decode.lean ====
section
/-! DEFINITION. The decoder and the encoder: the opcode table (30_encoding.md R75), the length decode (30_encoding.md R70, 40_dispatcher.md
R92), decoding of any bytes with a named rejection, the encoder, and the assembler spelling (30_encoding.md R80). -/

namespace Sys2Proof

/-- The opcode byte of each instruction, as the binary column of 30_encoding.md R75 writes it. -/
def Instr.opcode : Instr → Byte
  | .ldi => 0b10000010#8
  | .prn => 0b01000111#8
  | .hlt => 0b00000001#8
  | .add => 0b10100000#8
  | .mul => 0b10100010#8
  | .pop => 0b01000110#8
  | .push => 0b01000101#8
  | .ret => 0b00010001#8
  | .call => 0b01010000#8

/-- The opcode table: the constant map from opcode bytes to handlers (10_state.md R37, 30_encoding.md R75), as its hex column writes it. -/
def opcodeTable : List (Byte × Instr) :=
  [(0x82#8, .ldi), (0x47#8, .prn), (0x01#8, .hlt), (0xA0#8, .add), (0xA2#8, .mul), (0x46#8, .pop), (0x45#8, .push), (0x11#8, .ret),
   (0x50#8, .call)]

/-- Lookup by all eight bits of the opcode byte; every byte outside the table is undefined (30_encoding.md R72, R76). -/
def decodeOpcode (b : Byte) : Option Instr := opcodeTable.lookup b

/-- `L = ir[7:6] + 1`, the source's `((IR & 0b11000000) >> 6) + 1`, for every byte, defined or not (30_encoding.md R70, 40_dispatcher.md
R92). -/
def decodeLength (b : Byte) : Nat := ((b &&& 0b11000000#8) >>> 6).toNat + 1

/-- The length `L` that the dispatcher decodes from this instruction's opcode byte and passes to its handler (40_dispatcher.md R92, R97;
Log 12). -/
def Instr.length (i : Instr) : Nat := decodeLength i.opcode

/-- Why bytes are not an instruction. -/
inductive DecodeError where
  /-- There is no opcode byte. -/
  | noBytes
  /-- The opcode byte is not one of the nine (30_encoding.md R76). -/
  | unknownOpcode (b : Byte)
  /-- The opcode is defined and some of its operand bytes are missing. -/
  | truncated (i : Instr)
  deriving DecidableEq, Repr

/-- Decode the instruction at the head of a byte sequence, and give the bytes after it; total on any bytes, rejecting by name. The machine
itself decodes the opcode byte alone (30_encoding.md R79); this is the reader of whole instructions. -/
def decode : List Byte → Except DecodeError (Instruction × List Byte)
  | [] => .error .noBytes
  | b :: rest =>
    match decodeOpcode b with
    | none => .error (.unknownOpcode b)
    | some i =>
      if rest.length < i.operandCount then .error (.truncated i)
      else .ok (⟨i, rest.take i.operandCount⟩, rest.drop i.operandCount)

/-- The bytes of an instruction: the opcode, then the operand bytes at increasing addresses (30_encoding.md R70, R71, 20_memory.md R55). -/
def encode (a : Instruction) : List Byte := a.op.opcode :: a.operands

/-- Byte `k` of the bytes of the number `w`, of which only the low `nbits` bits count. -/
def tableByte (nbits w k : Nat) : Byte := lowByte ((w % 2 ^ nbits) >>> (8 * k))

/-- The three bytes (the longest instruction) whose first `nbits` bits are those of `w`, the first byte the least significant. -/
def tableBytes (nbits w : Nat) : List Byte := [tableByte nbits w 0, tableByte nbits w 1, tableByte nbits w 2]

/-- The instruction the decoder reads from the bytes of `w`. -/
def decodeTableWord (nbits w : Nat) : Option Instr :=
  match decode (tableBytes nbits w) with
  | .ok (a, _) => some a.op
  | .error _ => none

/-- The mnemonic (30_encoding.md R75). -/
def Instr.mnemonic : Instr → String
  | .ldi => "LDI"
  | .prn => "PRN"
  | .hlt => "HLT"
  | .add => "ADD"
  | .mul => "MUL"
  | .pop => "POP"
  | .push => "PUSH"
  | .ret => "RET"
  | .call => "CALL"

/-- The spelling of an operand: a register is `R<b>`, even for `b >= 8`, an immediate is a number, here decimal (30_encoding.md R80; Log
16). -/
def OperandKind.spell : OperandKind → Byte → String
  | .reg, b => "R" ++ toString b.toNat
  | .imm, b => toString b.toNat

/-- The assembler spelling: the mnemonic, then the operands separated by a comma and a space (30_encoding.md R80). -/
def Instruction.spell (a : Instruction) : String :=
  match List.zipWith OperandKind.spell a.op.format.operands a.operands with
  | [] => a.op.mnemonic
  | os => a.op.mnemonic ++ " " ++ String.intercalate ", " os

end Sys2Proof
end

