-- ==== Sys2Proof/Config.lean ====
section
/-! DEFINITION. The parameters of the hardware (00_scope.md R8): the constants the spec fixes, and the two it leaves open, which are
uninterpreted constants with no body. -/

namespace Sys2Proof

/-- The result of the divide primitive where the spec leaves it open: "a value, or a fault" (92_eei_decisions.md D13). -/
inductive Quotient where
  /-- A quotient. -/
  | value (q : Int)
  /-- The primitive faults instead of returning. -/
  | fault
  deriving DecidableEq, Repr, Inhabited

/-- `MEM_SIZE`: bytes in the one address space (00_scope.md R8). -/
abbrev Config.memSize : Nat := 256

/-- `NREG`: general registers (00_scope.md R8). -/
abbrev Config.nReg : Nat := 8

/-- `SP_INIT`: the stack pointer at start and the empty-stack sentinel (00_scope.md R8, 10_state.md R30). -/
abbrev Config.spInit : Byte := 0xF4#8

/-- `DIV_BY_ZERO`: what `divide a 0` gives, an open parameter (00_scope.md R8, 41_alu.md R113). A free value: nothing constrains it.
No instruction reaches it (41_alu.md R114). Log 8. -/
opaque Config.divByZero : Int → Quotient

/-- `DIV_WIDE`: what `divide a b` gives when a magnitude is 256 or more, an open parameter (00_scope.md R8, 41_alu.md R113). A free
value: nothing constrains it. No instruction reaches it (41_alu.md R114). Log 8. -/
opaque Config.divWide : Int → Int → Quotient

end Sys2Proof
end

