-- ==== Sys2Proof/Machine/State.lean ====
section
/-! DEFINITION. The machine's state, as plain data: exactly the pieces 10_state.md R20 lists, and their values after reset (10_state.md R41).
The ways a step can stop without a next state are here too. -/

namespace Sys2Proof.Machine

/-- The running state (10_state.md R34). -/
inductive Status where
  /-- RUNNING: steps are taken. -/
  | running
  /-- HALTED: entered by HLT alone. -/
  | halted
  /-- FAULTED: entered by a fault alone (60_exceptions.md R160). -/
  | faulted
  deriving DecidableEq, Repr

/-- The kinds of `OutOfBoundsAddress` (60_exceptions.md R165). -/
inductive BoundsKind where
  /-- A memory access at 256 or above. -/
  | memAddress
  /-- A register index of 8 or more. -/
  | regIndex
  /-- A CALL return address of 256 or more. -/
  | returnAddress
  deriving DecidableEq, Repr

/-- The fault causes with the information each records (60_exceptions.md R161). -/
inductive Cause where
  /-- Code 1: an undefined opcode was fetched (60_exceptions.md R162). -/
  | unknownInstruction (opcode : Byte) (pc : PcWord)
  /-- Code 2: POP or RET on the empty stack (60_exceptions.md R163). -/
  | stackUnderflow (sp : Byte)
  /-- Code 3: PUSH or CALL failed its overflow test; `sp` is the decremented one (60_exceptions.md R164). -/
  | stackOverflow (sp : Byte) (pc : PcWord)
  /-- Code 4: an address, a register index or a return address out of range (60_exceptions.md R165). -/
  | outOfBoundsAddress (kind : BoundsKind) (value : Nat)
  /-- Code 5: an operation name the ALU does not know. Nothing in this hardware raises it; it is kept so that the list of causes is the
  source's (60_exceptions.md R166, 41_alu.md R116). -/
  | unsupportedAluOperation (op : String)
  /-- Code 6: `subtract a b` with `b > a` (60_exceptions.md R167, 41_alu.md R111). -/
  | subtractUnderflow (a b : Nat)
  deriving DecidableEq, Repr

/-- The numeric code of a cause (60_exceptions.md R161). -/
def Cause.code : Cause → Nat
  | .unknownInstruction .. => 1
  | .stackUnderflow .. => 2
  | .stackOverflow .. => 3
  | .outOfBoundsAddress .. => 4
  | .unsupportedAluOperation .. => 5
  | .subtractUnderflow .. => 6

/-- The fault record `(cause, info, fault_pc)` (60_exceptions.md R160); the info is in the cause. -/
structure FaultRecord where
  /-- The cause and its information. -/
  cause : Cause
  /-- The `pc` at the start of the step that faulted. -/
  faultPc : PcWord
  deriving DecidableEq, Repr

/-- Memory: the cells that are not 0, as (address, byte) pairs at strictly rising addresses. An unlisted address reads as 0, the reset
contents (20_memory.md R50, R54; Log 4). -/
structure Memory where
  /-- The listed cells. -/
  cells : List Host.Cell
  deriving DecidableEq, Repr

/-- The canonical form: addresses strictly rise, no listed byte is 0, and every address is below 256. -/
abbrev Memory.wf (m : Memory) : Prop :=
  m.cells.Pairwise (fun c d => c.1 < d.1) ∧ ∀ c ∈ m.cells, c.2 ≠ 0#8 ∧ c.1 < Config.memSize

/-- The machine state (10_state.md R20). -/
structure State where
  /-- `x[0..7]`, the general registers (10_state.md R21). -/
  regs : Vector Byte Config.nReg
  /-- `pc`, the program counter (10_state.md R26). -/
  pc : PcWord
  /-- `sp`, the stack pointer (10_state.md R30). -/
  sp : Byte
  /-- `ir`, the instruction register (10_state.md R33). -/
  ir : Byte
  /-- `status` (10_state.md R34). -/
  status : Status
  /-- `fault`, the fault record or none (10_state.md R35). -/
  fault : Option FaultRecord
  /-- `out`, the values emitted on the output port, the first emitted first (10_state.md R36). -/
  out : List Byte
  /-- `M[0..255]`, the memory behind the memory port (20_memory.md R50). -/
  mem : Memory
  deriving DecidableEq, Repr

/-- Why a step has no next state. An architected fault is not one of these: it is a next state with `status = FAULTED` (Log 1). -/
inductive Fault where
  /-- Raised by `step` of a HALTED machine: "In HALTED and in FAULTED there is no step" (40_dispatcher.md R90). Safe: nothing is claimed
  of a step that the spec says does not exist (Log 2). -/
  | noStepWhenHalted
  /-- Raised by `step` of a FAULTED machine, for the same reason (40_dispatcher.md R90, 60_exceptions.md R160). Safe (Log 2). -/
  | noStepWhenFaulted
  deriving DecidableEq, Repr

/-- Why an instruction has no meaning. -/
inductive Refusal where
  /-- Raised by an arm of `exec` whose instruction has no meaning yet; no arm raises it in this model. Safe: the run stops by name. -/
  | notModelled (mnemonic : String)
  deriving DecidableEq, Repr

/-- The outcome of a step or of an instruction. -/
abbrev Result := Host.Outcome State Fault Refusal

/-- The machine after construction, before loading (10_state.md R41, 70_reset_and_hazards.md R190). `ir` is 0 by the spec's decision D14
(Log 5). -/
def State.reset : State where
  regs := Vector.replicate Config.nReg 0#8
  pc := 0#9
  sp := Config.spInit
  ir := 0#8
  status := .running
  fault := none
  out := []
  mem := ⟨[]⟩

end Sys2Proof.Machine
end

