-- ==== Sys2Proof/Machine/Primitives.lean ====
section
/-! DEFINITION. The four arithmetic primitives (41_alu.md R110 to R113). The machine uses their results, which the spec states exactly;
the loops the spec writes for them stand beside the results, under a step bound, so that the two can be compared (Log 9). -/

namespace Sys2Proof.Machine

/-- `add a b`: exactly `a + b`, no wrap-around, no width limit (41_alu.md R110). -/
def add (a b : Nat) : Nat := a + b

/-- The loop of 41_alu.md R110, `while b > 0: (a, b) <- (a ^ b, (a & b) << 1)`, for at most `n` turns; none if it has not ended by then. -/
def addLoop : Nat → Nat → Nat → Option Nat
  | 0, a, b => if b = 0 then some a else none
  | n + 1, a, b => if b = 0 then some a else addLoop n (a ^^^ b) ((a &&& b) <<< 1)

/-- `subtract a b`: exactly `a - b` for `b <= a`; for `b > a` it raises `SubtractUnderflow(a, b)` and returns nothing (41_alu.md R111). -/
def subtract (a b : Nat) : Except Cause Nat :=
  if a < b then .error (.subtractUnderflow a b) else .ok (a - b)

/-- The bits of `b` that are not in `a`: the source's `~a & b`, which is finite whatever the width of `~a`, since `b` is. -/
def andNot (a b : Nat) : Nat := b ^^^ (a &&& b)

/-- The loop of 41_alu.md R111, `while b > 0: (a, b) <- (a ^ b, (~a & b) << 1)`, for at most `n` turns and without the test that precedes
it; none if it has not ended by then. -/
def subtractLoop : Nat → Nat → Nat → Option Nat
  | 0, a, b => if b = 0 then some a else none
  | n + 1, a, b => if b = 0 then some a else subtractLoop n (a ^^^ b) (andNot a b <<< 1)

/-- `multiply a b`: the product (41_alu.md R112). -/
def multiply (a b : Nat) : Nat := a * b

/-- The loop of 41_alu.md R112 (illustrative there): shifted partial products of `a` added to `r` for each bit of `b`, for at most `n`
turns; none if it has not ended by then. -/
def multiplyLoop : Nat → Nat → Nat → Nat → Option Nat
  | 0, r, _, b => if b = 0 then some r else none
  | n + 1, r, a, b =>
    if b = 0 then some r
    else multiplyLoop n (if b.testBit 0 then add r a else r) (a <<< 1) (b >>> 1)

/-- Restoring division over magnitudes (41_alu.md R113): bits `i - 1` down to 0 of the dividend `m`, divisor `d`, quotient so far `q`,
remainder so far `r`; the quotient. -/
def divideLoop : Nat → Nat → Nat → Nat → Nat → Nat
  | 0, _, _, q, _ => q
  | i + 1, m, d, q, r =>
    let r := (r <<< 1) ||| (m.testBit i).toNat
    if d ≤ r then divideLoop i m d (q ||| (1 <<< i)) (r - d) else divideLoop i m d q r

/-- `divide a b` (41_alu.md R113): the sign from the operands' signs, restoring division over the magnitudes from bit 7 down to bit 0, the
sign reapplied to the quotient. Divisor 0 and a magnitude of 256 or more are the two open parameters (Log 8). No instruction uses it
(41_alu.md R114). -/
def divide (a b : Int) : Quotient :=
  if b = 0 then Config.divByZero a
  else if 256 ≤ a.natAbs ∨ 256 ≤ b.natAbs then Config.divWide a b
  else
    let q : Int := divideLoop 8 a.natAbs b.natAbs 0 0
    .value (if (a < 0) ≠ (b < 0) then -q else q)

end Sys2Proof.Machine
end

