-- ==== Sys2Proof/Machine/Ops.lean ====
section
/-! DEFINITION. The named operations over memory, registers, program counter, stack pointer, output port and status (00_scope.md R11), and
taking a fault (60_exceptions.md R160). An operation that can fault takes what follows it as its last argument: a fault ends the
instruction there, keeps the effects made so far, and runs nothing later (00_scope.md R11, `raise`). -/

namespace Sys2Proof.Machine

/-! ### Memory -/

/-- The listed byte at an address, or what an unlisted address reads as: 0 (20_memory.md R54). -/
def lookupCell : List Host.Cell → Nat → Byte
  | [], _ => 0#8
  | (b, w) :: rest, a => if a = b then w else lookupCell rest a

/-- Store a byte, keeping addresses rising and no 0 listed. -/
def insertCell : List Host.Cell → Nat → Byte → List Host.Cell
  | [], a, v => if v = 0#8 then [] else [(a, v)]
  | (b, w) :: rest, a, v =>
    if a < b then (if v = 0#8 then (b, w) :: rest else (a, v) :: (b, w) :: rest)
    else if a = b then (if v = 0#8 then rest else (a, v) :: rest)
    else (b, w) :: insertCell rest a v

/-- The byte at an address (20_memory.md R50). Its bounds are checked by `withMemRead`. -/
def Memory.read (m : Memory) (a : Nat) : Byte := lookupCell m.cells a

/-- The memory with one byte set (20_memory.md R52, R57). Its bounds are checked by `withMemWrite`. -/
def Memory.write (m : Memory) (a : Nat) (v : Byte) : Memory := ⟨insertCell m.cells a v⟩

/-! ### Taking a fault. There is no return from one (60_exceptions.md R172). -/

/-- The state a fault leaves: the record, `status = FAULTED`, and nothing else changed (60_exceptions.md R160). `fault_pc` is the `pc` at
the start of the step: every handler changes `pc` last (40_dispatcher.md R95). -/
def State.faultedBy (s : State) (c : Cause) : State := { s with status := .faulted, fault := some ⟨c, s.pc⟩ }

/-- `raise C(info)` (60_exceptions.md R160). -/
def raise (s : State) (c : Cause) : Result := .next (s.faultedBy c)

/-! ### The memory port -/

/-- `MemRead(addr, 1)`: faults at 256 and above (20_memory.md R51). -/
def withMemRead (s : State) (addr : Nat) (next : Byte → Result) : Result :=
  if addr < Config.memSize then next (s.mem.read addr) else raise s (.outOfBoundsAddress .memAddress addr)

/-- `MemWrite(addr, 1, v)`: faults at 256 and above and writes nothing (20_memory.md R52). -/
def withMemWrite (s : State) (addr : Nat) (v : Byte) (next : State → Result) : Result :=
  if addr < Config.memSize then next { s with mem := s.mem.write addr v }
  else raise s (.outOfBoundsAddress .memAddress addr)

/-! ### General registers -/

/-- The value of general register `i` (10_state.md R21); its index is checked by `withRegRead` (an index of 8 or more names none). -/
def State.reg (s : State) (i : Nat) : Byte := s.regs.getD i 0#8

/-- The state with general register `i` set (10_state.md R22); its index is checked by `withRegWrite`. -/
def State.setReg (s : State) (i : Nat) (v : Byte) : State := { s with regs := s.regs.setIfInBounds i v }

/-- Read `x[i]`: faults for `i >= 8` (10_state.md R23). -/
def withRegRead (s : State) (i : Byte) (next : Byte → Result) : Result :=
  if i.toNat < Config.nReg then next (s.reg i.toNat) else raise s (.outOfBoundsAddress .regIndex i.toNat)

/-- `x[i] <- v`: faults for `i >= 8` and writes nothing (10_state.md R22, R23). The argument is the value already reduced to 8 bits. -/
def withRegWrite (s : State) (i v : Byte) (next : State → Result) : Result :=
  if i.toNat < Config.nReg then next (s.setReg i.toNat v) else raise s (.outOfBoundsAddress .regIndex i.toNat)

/-! ### Program counter, stack pointer, output, status -/

/-- `pc <- target` (10_state.md R27). -/
def State.setPc (s : State) (target : Nat) : State := { s with pc := BitVec.ofNat 9 target }

/-- `pc <- pc + L`, the last effect of a straight-line handler, with `L` the length decoded from its opcode and the exact `add`
(40_dispatcher.md R95, R97, 10_state.md R28; Log 6, Log 12). -/
def State.advance (s : State) (i : Instr) : State := s.setPc (add s.pc.toNat i.length)

/-- `sp <- sp - 1`, through the subtract primitive: at `sp = 0` it raises `SubtractUnderflow(0, 1)` and `sp` stays 0 (10_state.md R31,
41_alu.md R111). -/
def withSpDecremented (s : State) (next : State → Result) : Result :=
  match subtract s.sp.toNat 1 with
  | .ok v => next { s with sp := lowByte v }
  | .error c => raise s c

/-- `sp <- sp + 1`, through the add primitive (10_state.md R31; Log 7). -/
def State.incrementSp (s : State) : State := { s with sp := lowByte (add s.sp.toNat 1) }

/-- The empty-stack test of POP and RET: the value test `sp = 0xF4` and nothing else (43_stack.md R143). -/
def withStackNotEmpty (s : State) (next : Result) : Result :=
  if s.sp = Config.spInit then raise s (.stackUnderflow s.sp) else next

/-- `Output(v)` (00_scope.md R11, 10_state.md R36). -/
def State.output (s : State) (v : Byte) : State := { s with out := s.out ++ [v] }

/-- `status <- HALTED` (00_scope.md R11). -/
def State.halt (s : State) : State := { s with status := .halted }

end Sys2Proof.Machine
end

