-- ==== Sys2Proof/Machine/Operands.lean ====
section
/-! DEFINITION. The operand forms (30_encoding.md R71, R73, R74). Operand byte `k` stands at `pc + k`, computed exactly with no wrap-around
(40_dispatcher.md R96), and is read from memory as it stands when the handler reaches it (30_encoding.md R79, 70_reset_and_hazards.md
R197; Log 3). -/

namespace Sys2Proof.Machine

/-- The address of operand byte `k` (40_dispatcher.md R96). -/
def State.operandAddr (s : State) (k : Nat) : Nat := add s.pc.toNat k

/-- Operand byte `k`: a register index or an immediate, the whole byte, unsigned (30_encoding.md R73, R74). -/
def withOperand (s : State) (k : Nat) (next : Byte → Result) : Result := withMemRead s (s.operandAddr k) next

/-- The register that the byte at `addr` names: its index and its value ("indirect register addressing", 30_encoding.md R73). -/
def withNamedReg (s : State) (addr : Nat) (next : Byte → Byte → Result) : Result :=
  withMemRead s addr fun i => withRegRead s i fun v => next i v

/-- The value of the register that operand byte `k` names. -/
def withRegOperand (s : State) (k : Nat) (next : Byte → Result) : Result :=
  withNamedReg s (s.operandAddr k) fun _ v => next v

end Sys2Proof.Machine
end

