-- ==== Sys2Proof/Machine/Alu.lean ====
section
/-! DEFINITION. The ALU and its two instructions, ADD and MUL (41_alu.md R115 to R118). -/

namespace Sys2Proof.Machine

/-- The ALU operations: exactly two, so that no unsupported operation can be written (41_alu.md R116). -/
inductive AluOp where
  /-- ADD (41_alu.md R117). -/
  | add
  /-- MUL (41_alu.md R118). -/
  | mul
  deriving DecidableEq, Repr

/-- The exact result of an operation on two register values (41_alu.md R115). -/
def AluOp.compute : AluOp → Nat → Nat → Nat
  | .add, a, b => Machine.add a b
  | .mul, a, b => multiply a b

/-- `apply(op, aAddr, bAddr)`: the `b` operand is read before the `a` operand, and the result, masked to 8 bits, goes to the register the
`a` operand names (41_alu.md R115). -/
def aluApply (op : AluOp) (aAddr bAddr : Nat) (s : State) (next : State → Result) : Result :=
  withNamedReg s bAddr fun _ b =>
  withNamedReg s aAddr fun ia a =>
  withRegWrite s ia (lowByte (op.compute a.toNat b.toNat)) next

/-- ADD (41_alu.md R117). -/
def execAdd (s : State) : Result :=
  aluApply .add (s.operandAddr 1) (s.operandAddr 2) s fun s => .next (s.advance .add)

/-- MUL (41_alu.md R118). -/
def execMul (s : State) : Result :=
  aluApply .mul (s.operandAddr 1) (s.operandAddr 2) s fun s => .next (s.advance .mul)

end Sys2Proof.Machine
end

