-- ==== Sys2Proof/Machine/CallReturn.lean ====
section
/-! DEFINITION. RET and CALL (44_call_return.md R150, R151). -/

namespace Sys2Proof.Machine

/-- RET (44_call_return.md R150). -/
def execRet (s : State) : Result :=
  withStackNotEmpty s <|
  withMemRead s s.sp.toNat fun target =>
  .next (s.incrementSp.setPc target.toNat)

/-- The address after this CALL, `pc + L`, exact (44_call_return.md R151). -/
def State.returnAddr (s : State) : Nat := add s.pc.toNat Instr.call.length

/-- CALL (44_call_return.md R151). The overflow test is `sp == pc` with the decremented `sp`; the operand byte is read after the stack
write. -/
def execCall (s : State) : Result :=
  withSpDecremented s fun s =>
  if s.sp.toNat = s.pc.toNat then raise s (.stackOverflow s.sp s.pc)
  else if Config.memSize ≤ s.returnAddr then raise s (.outOfBoundsAddress .returnAddress s.returnAddr)
  else
    withMemWrite s s.sp.toNat (lowByte s.returnAddr) fun s =>
    withRegOperand s 1 fun target =>
    .next (s.setPc target.toNat)

end Sys2Proof.Machine
end

