-- ==== Sys2Proof/Machine/LoadPrintHalt.lean ====
section
/-! DEFINITION. LDI, PRN and HLT (42_load_print_halt.md R130 to R132). -/

namespace Sys2Proof.Machine

/-- LDI (42_load_print_halt.md R130). -/
def execLdi (s : State) : Result :=
  withOperand s 1 fun r =>
  withOperand s 2 fun imm =>
  withRegWrite s r imm fun s =>
  .next (s.advance .ldi)

/-- PRN (42_load_print_halt.md R131). -/
def execPrn (s : State) : Result :=
  withRegOperand s 1 fun v =>
  .next ((s.output v).advance .prn)

/-- HLT (42_load_print_halt.md R132). -/
def execHlt (s : State) : Result := .next (s.halt.advance .hlt)

end Sys2Proof.Machine
end

