-- ==== Sys2Proof/Machine/Stack.lean ====
section
/-! DEFINITION. POP and PUSH (43_stack.md R140 to R143). -/

namespace Sys2Proof.Machine

/-- POP (43_stack.md R140). -/
def execPop (s : State) : Result :=
  withStackNotEmpty s <|
  withOperand s 1 fun r =>
  withMemRead s s.sp.toNat fun v =>
  withRegWrite s r v fun s =>
  .next (s.incrementSp.advance .pop)

/-- PUSH (43_stack.md R141). The overflow test is `sp <= pc + 1` with the decremented `sp`. -/
def execPush (s : State) : Result :=
  withSpDecremented s fun s =>
  if s.sp.toNat ≤ s.operandAddr 1 then raise s (.stackOverflow s.sp s.pc)
  else
    withRegOperand s 1 fun v =>
    withMemWrite s s.sp.toNat v fun s =>
    .next (s.advance .push)

end Sys2Proof.Machine
end

