-- ==== Sys2Proof/Machine/Dispatch.lean ====
section
/-! DEFINITION. The handler of each instruction of the opcode table (40_dispatcher.md R94). -/

namespace Sys2Proof.Machine

/-- Run the handler of an instruction (40_dispatcher.md R93, R94). -/
def exec (i : Instr) (s : State) : Host.Outcome State Fault Refusal :=
  match i with
  | .ldi => Sys2Proof.Machine.execLdi s
  | .prn => Sys2Proof.Machine.execPrn s
  | .hlt => Sys2Proof.Machine.execHlt s
  | .add => Sys2Proof.Machine.execAdd s
  | .mul => Sys2Proof.Machine.execMul s
  | .pop => Sys2Proof.Machine.execPop s
  | .push => Sys2Proof.Machine.execPush s
  | .ret => Sys2Proof.Machine.execRet s
  | .call => Sys2Proof.Machine.execCall s

end Sys2Proof.Machine
end

