-- ==== Sys2Proof/Machine/Fetch.lean ====
section
/-! DEFINITION. Fetch, lookup, and where an instruction's bytes lie (40_dispatcher.md R91 to R94). -/

namespace Sys2Proof.Machine

/-- Fetch: `ir <- MemRead(pc, 1)` (40_dispatcher.md R91). A fetch that faults leaves `ir` alone (Log 15). -/
def withFetch (s : State) (next : State → Result) : Result :=
  withMemRead s s.pc.toNat fun b => next { s with ir := b }

/-- Lookup: the handler of the opcode in `ir`, or `UnknownInstruction` (40_dispatcher.md R93). -/
def lookup (s : State) (handler : Instr → State → Result) : Result :=
  match decodeOpcode s.ir with
  | some i => handler i s
  | none => raise s (.unknownInstruction s.ir s.pc)

/-- The step of a RUNNING machine: fetch, then the handler (40_dispatcher.md R94). The length decode has no effect on state
(40_dispatcher.md R92); the handler's length is `Instr.length` (Log 12). -/
def fetchAndRun (handler : Instr → State → Result) (s : State) : Result := withFetch s fun s => lookup s handler

/-- The bytes of memory from an address up to 255, at most `n` of them. -/
def Memory.bytesFrom (m : Memory) : Nat → Nat → List Byte
  | _, 0 => []
  | a, n + 1 => if a < Config.memSize then m.read a :: m.bytesFrom (a + 1) n else []

/-- The memory with bytes stored at rising addresses from `a`; what would lie at 256 or above is not stored. -/
def Memory.place (m : Memory) : Nat → List Byte → Memory
  | _, [] => m
  | a, b :: bs => if a < Config.memSize then (m.write a b).place (a + 1) bs else m

/-- The state with bytes stored where `step` fetches (Log 11). -/
def State.placeAtPc (s : State) (bytes : List Byte) : State := { s with mem := s.mem.place s.pc.toNat bytes }

end Sys2Proof.Machine
end

