-- ==== Sys2Proof/Machine/Flags.lean ====
section
/-! DEFINITION. The machine has no flags, condition codes or predicates (10_state.md R38), so no flag computation stands here. The one thing
the source calls a flag is its "Running flag", which is `status = RUNNING` (10_state.md R34). -/

namespace Sys2Proof.Machine

/-- The source's "Running flag" (10_state.md R34). -/
def State.runningFlag (s : State) : Bool := s.status == .running

/-- A step is taken only while `status = RUNNING`; otherwise there is no step (40_dispatcher.md R90; Log 2). -/
def whenRunning (s : State) (next : Result) : Result :=
  if s.runningFlag then next
  else if s.status = .halted then .fault .noStepWhenHalted
  else .fault .noStepWhenFaulted

end Sys2Proof.Machine
end

