-- ==== Sys2Proof/Machine/Step.lean ====
section
/-! DEFINITION. One step of the machine (40_dispatcher.md R90, R94). -/

namespace Sys2Proof.Machine

/-- One step: only while RUNNING, fetch, decode, dispatch (40_dispatcher.md R90, R94). -/
def step (s : State) : Host.Outcome State Fault Refusal := whenRunning s (fetchAndRun exec s)

/-- `s` with the instruction whose bits are `w` stored at `pc`, where `step` fetches; nothing else changes. The next step runs it when `s`
is RUNNING and its bytes fit below address 256. It stands for the loading a host does (70_reset_and_hazards.md R191; Log 11). -/
def State.withFetchWord (s : State) (nbits w : Nat) : State := s.placeAtPc (tableBytes nbits w)

end Sys2Proof.Machine
end

