-- ==== Sys2Proof/Machine/HostPort.lean ====
section
/-! DEFINITION. What the host does to the block before a run and sees of it after one: loading an image (70_reset_and_hazards.md R191), the
status port (00_scope.md R7), the final observation (40_dispatcher.md R98) and the exit-status contract (60_exceptions.md R170). -/

namespace Sys2Proof.Machine

/-- Write the image bytes in order, each with the memory unit's write, from address `k` (70_reset_and_hazards.md R191). -/
def Memory.loadFrom (m : Memory) : Nat → List Byte → Memory
  | _, [] => m
  | k, b :: bs => (m.write k b).loadFrom (k + 1) bs

/-- The machine constructed and loaded with an image from address 0, ready for its first step; an image of more than 256 bytes is refused
before the launch (70_reset_and_hazards.md R190 to R192, 92_eei_decisions.md D15; Log 11). -/
def State.load (image : List Byte) : Option State :=
  if image.length ≤ Config.memSize then some { State.reset with mem := State.reset.mem.loadFrom 0 image } else none

/-- What the status port presents: the status, and the fault record when there is one (00_scope.md R7, 60_exceptions.md R170). -/
def State.statusPort (s : State) : Status × Option FaultRecord := (s.status, s.fault)

/-- What the host observes of a halted run (40_dispatcher.md R98). `ir` is not part of it (10_state.md R33). -/
structure Observation where
  /-- The output sequence. -/
  out : List Byte
  /-- The general registers. -/
  regs : Vector Byte Config.nReg
  /-- The stack pointer. -/
  sp : Byte
  /-- The program counter. -/
  pc : PcWord
  /-- Memory. -/
  mem : Memory
  deriving DecidableEq, Repr

/-- The observation of a HALTED machine, the only final state (40_dispatcher.md R98). -/
def State.observe (s : State) : Option Observation :=
  if s.status = .halted then some ⟨s.out, s.regs, s.sp, s.pc, s.mem⟩ else none

/-- The process exit status as far as the contract fixes it (60_exceptions.md R170; Log 14). -/
inductive ExitStatus where
  /-- Status 0. -/
  | zero
  /-- Some status other than 0; the host chooses which. -/
  | nonZero
  deriving DecidableEq, Repr

/-- HLT exits with status 0, every fault with a non-zero one, a running machine has not exited (60_exceptions.md R170). -/
def State.exitStatus (s : State) : Option ExitStatus :=
  match s.status with
  | .running => none
  | .halted => some .zero
  | .faulted => some .nonZero

end Sys2Proof.Machine
end

