-- ==== Sys2Proof/Safety.lean ====
section
/-! DEFINITION. What holds of every state a run can reach, what a run is, and how a run ends (40_dispatcher.md R98). -/

namespace Sys2Proof.Machine

/-- The invariant of the machine: memory is in canonical form, so every address it lists exists (20_memory.md R50, R52); `pc` is at most 256
(10_state.md R26); `sp` is at most 244 (10_state.md R30); and there is a fault record exactly when FAULTED, whose `fault_pc` is the final
`pc` (10_state.md R35, 60_exceptions.md R160, R168). -/
structure Inv (s : State) : Prop where
  memory : s.mem.wf
  pc_le : s.pc.toNat ≤ Config.memSize
  sp_le : s.sp.toNat ≤ Config.spInit.toNat
  fault_iff : s.fault.isSome ↔ s.status = .faulted
  fault_pc : ∀ f ∈ s.fault, f.faultPc = s.pc

/-- The register index a CALL that passes its tests reads: the byte at `pc + 1`, which is the return address `pc + 2` itself when the stack
write fell on that byte (44_call_return.md R151, 70_reset_and_hazards.md R197). For statements; the meaning of CALL reads memory. -/
abbrev State.callIndex (s : State) : Nat :=
  if s.sp.toNat - 1 = s.pc.toNat + 1 then s.pc.toNat + 2 else (s.mem.read (s.pc.toNat + 1)).toNat

/-- `Reaches s t`: some number of steps leads from `s` to `t`. -/
inductive Reaches : State → State → Prop where
  /-- No step. -/
  | refl (s : State) : Reaches s s
  /-- One more step at the end. -/
  | tail {s t u : State} : Reaches s t → step t = .next u → Reaches s u

/-- A run from `s` ends well: it reaches HALTED. FAULTED is never a final state (40_dispatcher.md R98). -/
def EndsWell (s : State) : Prop := ∃ t, Reaches s t ∧ t.status = .halted

/-- A run from `s` ends in a fault (40_dispatcher.md R98). -/
def EndsInFault (s : State) : Prop := ∃ t, Reaches s t ∧ t.status = .faulted

/-- A run from `s` goes on forever: every state it reaches is RUNNING (40_dispatcher.md R98). -/
def RunsForever (s : State) : Prop := ∀ t, Reaches s t → t.status = .running

end Sys2Proof.Machine
end

