-- ==== Sys2Proof/Certificates/Slice0/Obligations.lean ====
section
/-! DEFINITION. The statements for the provers. Each names the rule of spec/ it comes from; the ones that rest on a choice name the log entry
or the decision D<n> of spec/92_eei_decisions.md. `M` is the memory, `x` the registers, as the spec writes them. -/

open Sys2Proof Sys2Proof.Machine

/-! ### Reset and loading -/

/-- 10_state.md R25, R29, R32: after reset every general register is 0, `pc` is 0 and `sp` is 0xF4. -/
def Obligations.ResetRegistersPcSp : Prop :=
  (∀ i < 8, State.reset.reg i = 0#8) ∧ State.reset.pc = 0#9 ∧ State.reset.sp = 0xF4#8

/-- 10_state.md R41: the rest of the reset state: RUNNING, no fault, nothing output, memory all 0, and `ir` 0, which is the spec's own
decision D14 (Log 5). -/
def Obligations.ResetStatusFaultOutMemory : Prop :=
  State.reset.status = .running ∧ State.reset.fault = none ∧ State.reset.out = [] ∧ (∀ a, State.reset.mem.read a = 0#8) ∧
    State.reset.ir = 0#8

/-- 20_memory.md R54: at reset every cell is 0; after loading an image, `M[a]` is the image's byte below its length and 0 above it. -/
def Obligations.LoadedMemoryIsImage : Prop :=
  (∀ a, State.reset.mem.read a = 0#8) ∧
    ∀ (image : List Byte) (s : State), State.load image = some s →
      (∀ a (h : a < image.length), s.mem.read a = image[a]) ∧ (∀ a, image.length ≤ a → s.mem.read a = 0#8)

/-- 70_reset_and_hazards.md R191, decision D15 (Log 11): an image of up to 256 bytes is loaded and leaves everything but memory as reset
does; a longer one is refused. -/
def Obligations.LoadChangesMemoryOnly : Prop :=
  ∀ image : List Byte,
    (image.length ≤ 256 → ∃ s, State.load image = some s ∧ { s with mem := State.reset.mem } = State.reset) ∧
      (256 < image.length → State.load image = none)

/-! ### Decoding and encoding -/

/-- 30_encoding.md R70: `N` is the opcode's two high bits, `L` is `N + 1`, 1 to 4; a defined opcode is followed by `N` operand bytes, and
its `N` is 0, 1 or 2, so it is never 4 bytes long. -/
def Obligations.LengthIsHighBitsPlusOne : Prop :=
  ∀ b : Byte, decodeLength b = b.toNat / 64 + 1 ∧ 1 ≤ decodeLength b ∧ decodeLength b ≤ 4 ∧
    ∀ i, decodeOpcode b = some i → i.operandCount = b.toNat / 64 ∧ i.operandCount ≤ 2 ∧ i.length = decodeLength b

/-- 30_encoding.md R75, R76: exactly nine opcode bytes are defined, each with the instruction, length and format of the table. -/
def Obligations.OpcodeMapIsExactlyNineRows : Prop :=
  (∀ r ∈ [((0x82#8 : Byte), Instr.ldi, 3, Format.F3RI), (0x47#8, .prn, 2, .F2R), (0x01#8, .hlt, 1, .F1), (0xA0#8, .add, 3, .F3RR),
      (0xA2#8, .mul, 3, .F3RR), (0x46#8, .pop, 2, .F2R), (0x45#8, .push, 2, .F2R), (0x11#8, .ret, 1, .F1), (0x50#8, .call, 2, .F2R)],
    decodeOpcode r.1 = some r.2.1 ∧ decodeLength r.1 = r.2.2.1 ∧ r.2.1.format = r.2.2.2) ∧
  ∀ b : Byte, b ∉ [0x82#8, 0x47#8, 0x01#8, 0xA0#8, 0xA2#8, 0x46#8, 0x45#8, 0x11#8, 0x50#8] → decodeOpcode b = none

/-- 30_encoding.md R71, R75, R80: words written out from the encodings, one or more of each format. -/
def Obligations.WrittenWordsDecode : Prop :=
  decode [0b10000010#8, 0b00000011#8, 0b11111111#8] = .ok (Instruction.ldi 3#8 255#8, []) ∧
  decode [0b01000111#8, 0b00000111#8] = .ok (Instruction.prn 7#8, []) ∧
  decode [0b00000001#8] = .ok (Instruction.hlt, []) ∧
  decode [0b10100000#8, 0b00000001#8, 0b00000010#8] = .ok (Instruction.add 1#8 2#8, []) ∧
  decode [0b01000101#8, 0b00000100#8] = .ok (Instruction.push 4#8, []) ∧
  decode [0b01010000#8, 0b00000101#8] = .ok (Instruction.call 5#8, []) ∧
  decode [0b01010100#8, 0b00000000#8] = .error (.unknownOpcode 0x54#8)

/-- 30_encoding.md R70, R71, R73, R74: decoding the bytes of a well-formed instruction, whatever its operand bytes and whatever follows it,
gives it back with what follows. -/
def Obligations.DecodeOfEncode : Prop :=
  ∀ (a : Instruction) (rest : List Byte), a.wellFormed = true → decode (encode a ++ rest) = .ok (a, rest)

/-- 30_encoding.md R70, R76, R77: bytes that decode are the bytes of the well-formed instruction they decode to, so no two instructions
share bytes; bytes do not decode exactly when there are none, the opcode is not one of the nine, or operand bytes are missing. -/
def Obligations.DecodedBytesAreEncoding : Prop :=
  (∀ (bs : List Byte) (a : Instruction) (rest : List Byte),
    decode bs = .ok (a, rest) → a.wellFormed = true ∧ bs = encode a ++ rest) ∧
  ∀ (b : Byte) (bs : List Byte),
    (decode (b :: bs) = .error (.unknownOpcode b) ↔ decodeOpcode b = none) ∧
    ∀ i, decode (b :: bs) = .error (.truncated i) ↔ decodeOpcode b = some i ∧ bs.length < i.operandCount

/-! ### The step -/

/-- 40_dispatcher.md R94, 30_encoding.md R79: when the bytes at `pc` decode to an instruction, the step is that instruction's handler on
the state with the opcode in `ir`; the handler finds the decoded operand bytes at `pc + 1`, `pc + 2`. -/
def Obligations.StepRunsTheDecodedInstruction : Prop :=
  ∀ (s : State) (a : Instruction) (rest : List Byte), s.status = .running →
    decode (s.mem.bytesFrom s.pc.toNat 3) = .ok (a, rest) →
      step s = exec a.op { s with ir := a.op.opcode } ∧
        ∀ k (h : k < a.operands.length), s.mem.read (s.pc.toNat + 1 + k) = a.operands[k]

/-- 40_dispatcher.md R93: if the byte at `pc` is one of the nine opcodes the step runs that opcode's handler; otherwise it raises
`UnknownInstruction` with the opcode and `pc`, and registers, memory, `sp`, `pc` and `out` are unchanged. -/
def Obligations.DispatchByOpcodeByte : Prop :=
  ∀ s : State, s.status = .running → s.pc.toNat < 256 →
    (∀ r ∈ [((0x82#8 : Byte), Instr.ldi), (0x47#8, .prn), (0x01#8, .hlt), (0xA0#8, .add), (0xA2#8, .mul), (0x46#8, .pop),
        (0x45#8, .push), (0x11#8, .ret), (0x50#8, .call)],
      s.mem.read s.pc.toNat = r.1 → step s = exec r.2 { s with ir := r.1 }) ∧
    (s.mem.read s.pc.toNat ∉ [0x82#8, 0x47#8, 0x01#8, 0xA0#8, 0xA2#8, 0x46#8, 0x45#8, 0x11#8, 0x50#8] →
      step s = raise { s with ir := s.mem.read s.pc.toNat } (.unknownInstruction (s.mem.read s.pc.toNat) s.pc) ∧
        ∃ t, step s = .next t ∧ t.regs = s.regs ∧ t.mem = s.mem ∧ t.sp = s.sp ∧ t.pc = s.pc ∧ t.out = s.out)

/-- 40_dispatcher.md R91, decision D3: a fetch at 256 or above raises `OutOfBoundsAddress(MemAddress, pc)` and nothing else changes. -/
def Obligations.FetchAboveMemoryFaults : Prop :=
  ∀ s : State, s.status = .running → 256 ≤ s.pc.toNat →
    step s = .next { s with status := .faulted, fault := some ⟨.outOfBoundsAddress .memAddress s.pc.toNat, s.pc⟩ }

/-- 40_dispatcher.md R90, decision D1: there is a step exactly while RUNNING; how the model answers when asked for one in HALTED or FAULTED
is its own choice (Log 2). -/
def Obligations.StepExactlyWhileRunning : Prop :=
  ∀ s : State, ((∃ t, step s = .next t) ↔ s.status = .running) ∧
    (s.status = .halted → step s = .fault .noStepWhenHalted) ∧ (s.status = .faulted → step s = .fault .noStepWhenFaulted)

/-- 10_state.md R34: RUNNING to HALTED only by HLT; RUNNING to FAULTED only by a fault, which a fault record shows; no transition leaves
HALTED or FAULTED; RUNNING at reset. -/
def Obligations.StatusTransitions : Prop :=
  State.reset.status = .running ∧
  ∀ s t : State, step s = .next t →
    s.status = .running ∧
    (t.status = .halted ↔ s.pc.toNat < 256 ∧ s.mem.read s.pc.toNat = 0x01#8) ∧
    (t.status = .faulted → ∃ c, t.fault = some ⟨c, s.pc⟩) ∧
    (t.status ≠ .faulted → t.fault = s.fault)

/-- 10_state.md R27: `pc` changes by `pc + L` in LDI, PRN, HLT, ADD, MUL, POP and PUSH, to `x[M[pc+1]]` in CALL and to `M[sp]` in RET, and
in no other way; a faulting instruction does not change it. CALL's operand byte is the one in memory after its stack write. -/
def Obligations.PcChangesInThreeWays : Prop :=
  ∀ s t : State, step s = .next t →
    (t.status = .faulted → t.pc = s.pc) ∧
    (t.status ≠ .faulted →
      (s.mem.read s.pc.toNat ∈ [0x82#8, 0xA0#8, 0xA2#8] ∧ t.pc.toNat = s.pc.toNat + 3) ∨
      (s.mem.read s.pc.toNat ∈ [0x47#8, 0x46#8, 0x45#8] ∧ t.pc.toNat = s.pc.toNat + 2) ∨
      (s.mem.read s.pc.toNat = 0x01#8 ∧ t.pc.toNat = s.pc.toNat + 1) ∨
      (s.mem.read s.pc.toNat = 0x50#8 ∧ t.pc.toNat = (s.reg (t.mem.read (s.pc.toNat + 1)).toNat).toNat) ∨
      (s.mem.read s.pc.toNat = 0x11#8 ∧ t.pc.toNat = (s.mem.read s.sp.toNat).toNat))

/-- 10_state.md R31, R30: over every state in which the invariant holds, `sp` falls by exactly 1 in a PUSH or CALL (it stays only at 0, where
they fault), rises by exactly 1 in a POP or RET that does not fault, and changes in no other step. -/
def Obligations.SpChangesOnlyInStackInstructions : Prop :=
  ∀ s t : State, Inv s → step s = .next t →
    (s.pc.toNat < 256 ∧ s.mem.read s.pc.toNat ∈ [0x45#8, 0x50#8] ∧
      ((0 < s.sp.toNat ∧ t.sp.toNat + 1 = s.sp.toNat) ∨ (s.sp = 0#8 ∧ t.sp = 0#8 ∧ t.status = .faulted))) ∨
    (s.pc.toNat < 256 ∧ s.mem.read s.pc.toNat ∈ [0x46#8, 0x11#8] ∧
      ((t.status = .running ∧ t.sp.toNat = s.sp.toNat + 1) ∨ (t.status = .faulted ∧ t.sp = s.sp))) ∨
    ((s.pc.toNat < 256 → s.mem.read s.pc.toNat ∉ [0x45#8, 0x50#8, 0x46#8, 0x11#8]) ∧ t.sp = s.sp)

/-- 10_state.md R24: a step changes a general register only by LDI, ADD, MUL or POP, only the register its first operand byte names, and
only when it does not fault. -/
def Obligations.OnlyDestinationRegisterChanges : Prop :=
  ∀ (s t : State) (i : Nat), step s = .next t → t.reg i ≠ s.reg i →
    t.status = .running ∧ s.mem.read s.pc.toNat ∈ [0x82#8, 0xA0#8, 0xA2#8, 0x46#8] ∧ i = (s.mem.read (s.pc.toNat + 1)).toNat ∧ i < 8

/-- 20_memory.md R53, R57: a step changes memory only by PUSH or CALL, and only the one cell at the decremented `sp`. -/
def Obligations.OnlyPushedCellChanges : Prop :=
  ∀ (s t : State) (a : Nat), step s = .next t → t.mem.read a ≠ s.mem.read a →
    s.mem.read s.pc.toNat ∈ [0x45#8, 0x50#8] ∧ a + 1 = s.sp.toNat ∧ a = t.sp.toNat

/-- 20_memory.md R58, 10_state.md R30: over every state in which the invariant holds, no step writes the sentinel cell 0xF4 or any above
it. -/
def Obligations.StackNeverWritesSentinelOrAbove : Prop :=
  ∀ (s t : State) (a : Nat), Inv s → step s = .next t → 0xF4 ≤ a → t.mem.read a = s.mem.read a

/-- 10_state.md R36, decision D12: a PRN that does not fault appends the value of the register it names; no other step changes `out`. -/
def Obligations.OutGrowsOnlyByPrn : Prop :=
  ∀ s t : State, step s = .next t →
    (s.pc.toNat < 256 ∧ s.mem.read s.pc.toNat = 0x47#8 ∧ t.status ≠ .faulted →
      t.out = s.out ++ [s.reg (s.mem.read (s.pc.toNat + 1)).toNat]) ∧
    (¬(s.pc.toNat < 256 ∧ s.mem.read s.pc.toNat = 0x47#8 ∧ t.status ≠ .faulted) → t.out = s.out)

/-! ### Faults -/

/-- 60_exceptions.md R160, decision D8: raising a cause sets FAULTED and the record (cause, `pc`), all else unchanged; that this is a next
state is the model's reading (Log 1). 40_dispatcher.md R90: no step follows; that the model answers `noStepWhenFaulted` when asked for one is
its own choice (Log 2). -/
def Obligations.RaiseRecordsAndStops : Prop :=
  ∀ (s : State) (c : Cause), raise s c = .next { s with status := .faulted, fault := some ⟨c, s.pc⟩ } ∧
    ∀ t, raise s c = .next t → step t = .fault .noStepWhenFaulted

/-- 60_exceptions.md R161, decision D17: the numeric codes of the six causes. -/
def Obligations.CauseCodes : Prop :=
  ∀ (o x : Byte) (p : PcWord) (k : BoundsKind) (n m : Nat) (op : String),
    (Cause.unknownInstruction o p).code = 1 ∧ (Cause.stackUnderflow x).code = 2 ∧ (Cause.stackOverflow x p).code = 3 ∧
      (Cause.outOfBoundsAddress k n).code = 4 ∧ (Cause.unsupportedAluOperation op).code = 5 ∧
      (Cause.subtractUnderflow n m).code = 6

/-- 60_exceptions.md R168: a faulting step leaves `pc`, the registers and `out` unchanged and records the address of the instruction; `sp`
and memory change only as the table says, by PUSH and CALL. -/
def Obligations.FaultKeepsOnlyTheListedEffects : Prop :=
  ∀ s t : State, step s = .next t → t.status = .faulted →
    ∃ c, t.fault = some ⟨c, s.pc⟩ ∧ t.pc = s.pc ∧ t.regs = s.regs ∧ t.out = s.out ∧
      ((t.sp = s.sp ∧ t.mem = s.mem ∧ (s.pc.toNat < 256 → s.mem.read s.pc.toNat ∈ [0x45#8, 0x50#8] → c = .subtractUnderflow 0 1)) ∨
       (s.mem.read s.pc.toNat = 0x45#8 ∧ t.sp.toNat + 1 = s.sp.toNat ∧ t.mem = s.mem ∧
          (c = .stackOverflow t.sp s.pc ∨ ∃ r, c = .outOfBoundsAddress .regIndex r)) ∨
       (s.mem.read s.pc.toNat = 0x50#8 ∧ t.sp.toNat + 1 = s.sp.toNat ∧ t.mem = s.mem ∧
          (c = .stackOverflow t.sp s.pc ∨ c = .outOfBoundsAddress .returnAddress (s.pc.toNat + 2))) ∨
       (s.mem.read s.pc.toNat = 0x50#8 ∧ t.sp.toNat + 1 = s.sp.toNat ∧
          t.mem = s.mem.write t.sp.toNat (BitVec.ofNat 8 (s.pc.toNat + 2)) ∧ ∃ r, c = .outOfBoundsAddress .regIndex r))

/-- 43_stack.md R143: a POP or RET underflows exactly when `sp = 0xF4`, whatever was pushed and popped before. -/
def Obligations.EmptyStackTestIsTheSentinelValue : Prop :=
  ∀ (i : Instr) (s t : State), i ∈ [Instr.pop, Instr.ret] → s.fault = none → exec i s = .next t →
    ((∃ x p, t.fault = some ⟨.stackUnderflow x, p⟩) ↔ s.sp = 0xF4#8)

/-- 60_exceptions.md R164: with `sp` not 0, PUSH overflows exactly when the decremented `sp` is at most `pc + 1`, and CALL exactly when it
equals `pc`; the decremented `sp` remains, and it and `pc` are recorded. The code is 3. -/
def Obligations.StackOverflowTestsOfPushAndCall : Prop :=
  (∀ x p, (Cause.stackOverflow x p).code = 3) ∧
  ∀ s t : State, s.fault = none → 0 < s.sp.toNat →
    (exec .push s = .next t →
      ((∃ x p q, t.fault = some ⟨.stackOverflow x p, q⟩) ↔ s.sp.toNat - 1 ≤ s.pc.toNat + 1)) ∧
    (exec .call s = .next t →
      ((∃ x p q, t.fault = some ⟨.stackOverflow x p, q⟩) ↔ s.sp.toNat - 1 = s.pc.toNat)) ∧
    ((exec .push s = .next t ∨ exec .call s = .next t) → ∀ x p q, t.fault = some ⟨.stackOverflow x p, q⟩ →
      t.sp.toNat = s.sp.toNat - 1 ∧ x = t.sp ∧ p = s.pc ∧ t.status = .faulted)

/-- 10_state.md R23: a register operation with an index of 8 or more writes nothing and raises `OutOfBoundsAddress(RegIndex, i)`; with an
index below 8 it reads or writes the register of that number and no other. -/
def Obligations.RegisterIndexIsChecked : Prop :=
  ∀ (s : State) (i v : Byte) (f : Byte → Result) (g : State → Result),
    (8 ≤ i.toNat → withRegRead s i f = raise s (.outOfBoundsAddress .regIndex i.toNat) ∧
      withRegWrite s i v g = raise s (.outOfBoundsAddress .regIndex i.toNat)) ∧
    (i.toNat < 8 → withRegRead s i f = f (s.reg i.toNat) ∧
      ∃ t, withRegWrite s i v g = g t ∧ t.reg i.toNat = v ∧ (∀ j, j ≠ i.toNat → t.reg j = s.reg j) ∧
        { t with regs := s.regs } = s)

/-- 20_memory.md R51: a memory read at 256 or above raises `OutOfBoundsAddress(MemAddress, addr)` and reads nothing; below 256 it returns
the byte at the address. -/
def Obligations.MemReadIsBoundsChecked : Prop :=
  ∀ (s : State) (addr : Nat) (f : Byte → Result),
    (256 ≤ addr → withMemRead s addr f = raise s (.outOfBoundsAddress .memAddress addr)) ∧
    (addr < 256 → withMemRead s addr f = f (s.mem.read addr))

/-- 20_memory.md R52, R57: a memory write at 256 or above faults and writes nothing; below 256 it sets that cell and no other. -/
def Obligations.MemWriteIsBoundsChecked : Prop :=
  ∀ (s : State) (addr : Nat) (v : Byte) (g : State → Result), s.mem.wf →
    (256 ≤ addr → withMemWrite s addr v g = raise s (.outOfBoundsAddress .memAddress addr)) ∧
    (addr < 256 → ∃ t, withMemWrite s addr v g = g t ∧ t.mem.read addr = v ∧
      (∀ a, a ≠ addr → t.mem.read a = s.mem.read a) ∧ { t with mem := s.mem } = s)

/-! ### The instructions: what each does, and what it leaves alone -/

/-- 42_load_print_halt.md R130: LDI writes the byte at `pc + 2` to the register named by the byte at `pc + 1` and advances `pc` by 3; no other
register, no memory byte and nothing else changes. -/
def Obligations.LdiLoadsItsImmediate : Prop :=
  ∀ s : State, s.pc.toNat + 2 < 256 → (s.mem.read (s.pc.toNat + 1)).toNat < 8 →
    ∃ t, exec .ldi s = .next t ∧ t.reg (s.mem.read (s.pc.toNat + 1)).toNat = s.mem.read (s.pc.toNat + 2) ∧
      t.pc.toNat = s.pc.toNat + 3 ∧
      (∀ j, j ≠ (s.mem.read (s.pc.toNat + 1)).toNat → t.reg j = s.reg j) ∧ (∀ a, t.mem.read a = s.mem.read a) ∧
      t.sp = s.sp ∧ t.ir = s.ir ∧ t.status = s.status ∧ t.fault = s.fault ∧ t.out = s.out

/-- 42_load_print_halt.md R130, 60_exceptions.md R169, decision D7: LDI's faults in the order checked, each leaving all else unchanged. -/
def Obligations.LdiFaultsInOrder : Prop :=
  ∀ s : State,
    (256 ≤ s.pc.toNat + 1 → exec .ldi s = raise s (.outOfBoundsAddress .memAddress (s.pc.toNat + 1))) ∧
    (s.pc.toNat + 1 < 256 → 256 ≤ s.pc.toNat + 2 → exec .ldi s = raise s (.outOfBoundsAddress .memAddress (s.pc.toNat + 2))) ∧
    (s.pc.toNat + 2 < 256 → 8 ≤ (s.mem.read (s.pc.toNat + 1)).toNat →
      exec .ldi s = raise s (.outOfBoundsAddress .regIndex (s.mem.read (s.pc.toNat + 1)).toNat))

/-- 42_load_print_halt.md R131: PRN appends the value of the register named by the byte at `pc + 1` to the output and advances `pc` by 2; no
register, no memory byte and nothing else changes. -/
def Obligations.PrnEmitsTheRegister : Prop :=
  ∀ s : State, s.pc.toNat + 1 < 256 → (s.mem.read (s.pc.toNat + 1)).toNat < 8 →
    ∃ t, exec .prn s = .next t ∧ t.out = s.out ++ [s.reg (s.mem.read (s.pc.toNat + 1)).toNat] ∧ t.pc.toNat = s.pc.toNat + 2 ∧
      (∀ j, t.reg j = s.reg j) ∧ (∀ a, t.mem.read a = s.mem.read a) ∧
      t.sp = s.sp ∧ t.ir = s.ir ∧ t.status = s.status ∧ t.fault = s.fault

/-- 42_load_print_halt.md R131, 60_exceptions.md R169, decision D7: PRN's faults in the order checked. -/
def Obligations.PrnFaultsInOrder : Prop :=
  ∀ s : State,
    (256 ≤ s.pc.toNat + 1 → exec .prn s = raise s (.outOfBoundsAddress .memAddress (s.pc.toNat + 1))) ∧
    (s.pc.toNat + 1 < 256 → 8 ≤ (s.mem.read (s.pc.toNat + 1)).toNat →
      exec .prn s = raise s (.outOfBoundsAddress .regIndex (s.mem.read (s.pc.toNat + 1)).toNat))

/-- 42_load_print_halt.md R132: HLT, opcode 0x01, format F1, L = 1, once fetched, never faults; it sets HALTED and advances `pc` by 1, nothing else changes, and no step
runs after it. -/
def Obligations.HltHalts : Prop :=
  decodeOpcode 0b00000001#8 = some .hlt ∧ Instr.hlt.length = 1 ∧ Instr.hlt.format = .F1 ∧
  ∀ s : State, s.pc.toNat < 256 →
    ∃ t, exec .hlt s = .next t ∧ t.status = .halted ∧ t.pc.toNat = s.pc.toNat + 1 ∧
      (∀ j, t.reg j = s.reg j) ∧ (∀ a, t.mem.read a = s.mem.read a) ∧
      t.sp = s.sp ∧ t.ir = s.ir ∧ t.fault = s.fault ∧ t.out = s.out ∧ ∀ u, step t ≠ .next u

/-- 41_alu.md R117: ADD, opcode 0xA0, format F3RR, L = 3, puts the sum of two registers, mod 256, into the first and advances `pc` by 3, nothing else changes; its faults in
the order checked leave all else unchanged, and the one on `pc + 1` is never reached, since `pc + 2` is read first. -/
def Obligations.AddResultAndFaults : Prop :=
  decodeOpcode 0b10100000#8 = some .add ∧ Instr.add.length = 3 ∧ Instr.add.format = .F3RR ∧
  ∀ s : State,
    (s.pc.toNat + 2 < 256 → (s.mem.read (s.pc.toNat + 2)).toNat < 8 → (s.mem.read (s.pc.toNat + 1)).toNat < 8 →
      ∃ t, exec .add s = .next t ∧
        (t.reg (s.mem.read (s.pc.toNat + 1)).toNat).toNat =
          ((s.reg (s.mem.read (s.pc.toNat + 1)).toNat).toNat + (s.reg (s.mem.read (s.pc.toNat + 2)).toNat).toNat) % 256 ∧
        t.pc.toNat = s.pc.toNat + 3 ∧
        (∀ j, j ≠ (s.mem.read (s.pc.toNat + 1)).toNat → t.reg j = s.reg j) ∧ (∀ a, t.mem.read a = s.mem.read a) ∧
        t.sp = s.sp ∧ t.ir = s.ir ∧ t.status = s.status ∧ t.fault = s.fault ∧ t.out = s.out) ∧
    (256 ≤ s.pc.toNat + 2 → exec .add s = raise s (.outOfBoundsAddress .memAddress (s.pc.toNat + 2))) ∧
    (s.pc.toNat + 2 < 256 → 8 ≤ (s.mem.read (s.pc.toNat + 2)).toNat →
      exec .add s = raise s (.outOfBoundsAddress .regIndex (s.mem.read (s.pc.toNat + 2)).toNat)) ∧
    (s.pc.toNat + 2 < 256 → (s.mem.read (s.pc.toNat + 2)).toNat < 8 → 8 ≤ (s.mem.read (s.pc.toNat + 1)).toNat →
      exec .add s = raise s (.outOfBoundsAddress .regIndex (s.mem.read (s.pc.toNat + 1)).toNat))

/-- 41_alu.md R118: MUL, opcode 0xA2, format F3RR, L = 3, puts the product of two registers, mod 256, into the first and advances `pc` by 3, nothing else changes; its faults
are ADD's, in the same order. -/
def Obligations.MulResultAndFaults : Prop :=
  decodeOpcode 0b10100010#8 = some .mul ∧ Instr.mul.length = 3 ∧ Instr.mul.format = .F3RR ∧
  ∀ s : State,
    (s.pc.toNat + 2 < 256 → (s.mem.read (s.pc.toNat + 2)).toNat < 8 → (s.mem.read (s.pc.toNat + 1)).toNat < 8 →
      ∃ t, exec .mul s = .next t ∧
        (t.reg (s.mem.read (s.pc.toNat + 1)).toNat).toNat =
          ((s.reg (s.mem.read (s.pc.toNat + 1)).toNat).toNat * (s.reg (s.mem.read (s.pc.toNat + 2)).toNat).toNat) % 256 ∧
        t.pc.toNat = s.pc.toNat + 3 ∧
        (∀ j, j ≠ (s.mem.read (s.pc.toNat + 1)).toNat → t.reg j = s.reg j) ∧ (∀ a, t.mem.read a = s.mem.read a) ∧
        t.sp = s.sp ∧ t.ir = s.ir ∧ t.status = s.status ∧ t.fault = s.fault ∧ t.out = s.out) ∧
    (256 ≤ s.pc.toNat + 2 → exec .mul s = raise s (.outOfBoundsAddress .memAddress (s.pc.toNat + 2))) ∧
    (s.pc.toNat + 2 < 256 → 8 ≤ (s.mem.read (s.pc.toNat + 2)).toNat →
      exec .mul s = raise s (.outOfBoundsAddress .regIndex (s.mem.read (s.pc.toNat + 2)).toNat)) ∧
    (s.pc.toNat + 2 < 256 → (s.mem.read (s.pc.toNat + 2)).toNat < 8 → 8 ≤ (s.mem.read (s.pc.toNat + 1)).toNat →
      exec .mul s = raise s (.outOfBoundsAddress .regIndex (s.mem.read (s.pc.toNat + 1)).toNat))

/-- 43_stack.md R140: POP of a stack that is not empty writes `M[sp]` to the register named by the byte at `pc + 1`, raises `sp` by 1 and
advances `pc` by 2; no other register, no memory byte (the popped cell included) and nothing else changes. `sp` is at most 243 here in
every state in which the invariant holds. -/
def Obligations.PopTakesTheTopByte : Prop :=
  ∀ s : State, s.sp.toNat < 0xF4 → s.pc.toNat + 1 < 256 → (s.mem.read (s.pc.toNat + 1)).toNat < 8 →
    ∃ t, exec .pop s = .next t ∧ t.reg (s.mem.read (s.pc.toNat + 1)).toNat = s.mem.read s.sp.toNat ∧
      t.sp.toNat = s.sp.toNat + 1 ∧ t.pc.toNat = s.pc.toNat + 2 ∧
      (∀ j, j ≠ (s.mem.read (s.pc.toNat + 1)).toNat → t.reg j = s.reg j) ∧ (∀ a, t.mem.read a = s.mem.read a) ∧
      t.ir = s.ir ∧ t.status = s.status ∧ t.fault = s.fault ∧ t.out = s.out

/-- 43_stack.md R140, 60_exceptions.md R169, decision D7: POP's faults in the order checked, each leaving all else unchanged. -/
def Obligations.PopFaultsInOrder : Prop :=
  ∀ s : State,
    (s.sp = 0xF4#8 → exec .pop s = raise s (.stackUnderflow 0xF4#8)) ∧
    (s.sp ≠ 0xF4#8 → 256 ≤ s.pc.toNat + 1 → exec .pop s = raise s (.outOfBoundsAddress .memAddress (s.pc.toNat + 1))) ∧
    (s.sp ≠ 0xF4#8 → s.pc.toNat + 1 < 256 → 8 ≤ (s.mem.read (s.pc.toNat + 1)).toNat →
      exec .pop s = raise s (.outOfBoundsAddress .regIndex (s.mem.read (s.pc.toNat + 1)).toNat))

/-- 43_stack.md R141: a PUSH whose decremented `sp` is `pc + 2` or more writes the register's value at the decremented `sp` and advances `pc`
by 2; every byte of memory outside that one address and everything else is unchanged. -/
def Obligations.PushStoresTheRegister : Prop :=
  ∀ s : State, s.mem.wf → s.pc.toNat + 2 ≤ s.sp.toNat - 1 → (s.mem.read (s.pc.toNat + 1)).toNat < 8 →
    ∃ t, exec .push s = .next t ∧ t.sp.toNat = s.sp.toNat - 1 ∧
      t.mem.read (s.sp.toNat - 1) = s.reg (s.mem.read (s.pc.toNat + 1)).toNat ∧
      (∀ a, a ≠ s.sp.toNat - 1 → t.mem.read a = s.mem.read a) ∧ t.pc.toNat = s.pc.toNat + 2 ∧
      (∀ j, t.reg j = s.reg j) ∧ t.ir = s.ir ∧ t.status = s.status ∧ t.fault = s.fault ∧ t.out = s.out

/-- 43_stack.md R141, 60_exceptions.md R168, R169, decision D6: PUSH's faults in the order checked. `SubtractUnderflow` leaves `sp` at 0; the
other two leave the decremented `sp` and nothing written. -/
def Obligations.PushFaultsInOrder : Prop :=
  ∀ s : State,
    (s.sp = 0#8 → exec .push s = raise s (.subtractUnderflow 0 1)) ∧
    (s.sp ≠ 0#8 → s.sp.toNat - 1 ≤ s.pc.toNat + 1 →
      exec .push s = raise { s with sp := s.sp - 1#8 } (.stackOverflow (s.sp - 1#8) s.pc)) ∧
    (s.pc.toNat + 2 ≤ s.sp.toNat - 1 → 8 ≤ (s.mem.read (s.pc.toNat + 1)).toNat →
      exec .push s = raise { s with sp := s.sp - 1#8 } (.outOfBoundsAddress .regIndex (s.mem.read (s.pc.toNat + 1)).toNat))

/-- 44_call_return.md R150: RET, opcode 0x11, format F1, L = 1, of a stack that is not empty sets `pc` to `M[sp]` and raises `sp` by 1, nothing else changes, `M[sp]` included;
with `sp = 0xF4` it raises `StackUnderflow`, with `pc` and `sp` unchanged. `sp` is at most 244 in every state in which the invariant
holds. -/
def Obligations.RetReturnsOrUnderflows : Prop :=
  decodeOpcode 0b00010001#8 = some .ret ∧ Instr.ret.length = 1 ∧ Instr.ret.format = .F1 ∧
  ∀ s : State,
    (s.sp.toNat < 0xF4 →
      ∃ t, exec .ret s = .next t ∧ t.pc.toNat = (s.mem.read s.sp.toNat).toNat ∧ t.sp.toNat = s.sp.toNat + 1 ∧
        (∀ j, t.reg j = s.reg j) ∧ (∀ a, t.mem.read a = s.mem.read a) ∧
        t.ir = s.ir ∧ t.status = s.status ∧ t.fault = s.fault ∧ t.out = s.out) ∧
    (s.sp = 0xF4#8 → exec .ret s = raise s (.stackUnderflow 0xF4#8))

/-- 44_call_return.md R151: a CALL that passes its tests lowers `sp` by 1, writes the return address `pc + 2` at the new `sp`, and sets `pc` to
the value of the register named by the byte at `pc + 1` as it stands after that write; every other byte of memory and everything else is
unchanged. It does not matter whether the decremented `sp` is below `pc`. -/
def Obligations.CallPushesAndJumps : Prop :=
  ∀ s : State, s.mem.wf → s.sp ≠ 0#8 → s.sp.toNat - 1 ≠ s.pc.toNat → s.pc.toNat + 2 < 256 → s.callIndex < 8 →
    ∃ t, exec .call s = .next t ∧ t.sp.toNat = s.sp.toNat - 1 ∧ (t.mem.read (s.sp.toNat - 1)).toNat = s.pc.toNat + 2 ∧
      (∀ a, a ≠ s.sp.toNat - 1 → t.mem.read a = s.mem.read a) ∧ t.pc.toNat = (s.reg (s.callIndex)).toNat ∧
      (∀ j, t.reg j = s.reg j) ∧ t.ir = s.ir ∧ t.status = s.status ∧ t.fault = s.fault ∧ t.out = s.out

/-- 44_call_return.md R151, 60_exceptions.md R168, R169, decisions D5, D6: CALL's faults in the order checked, and what each leaves: `sp` at 0;
the decremented `sp`; the decremented `sp` with nothing written; the decremented `sp` and the written return address. -/
def Obligations.CallFaultsInOrder : Prop :=
  ∀ s : State, s.mem.wf →
    (s.sp = 0#8 → exec .call s = raise s (.subtractUnderflow 0 1)) ∧
    (s.sp ≠ 0#8 → s.sp.toNat - 1 = s.pc.toNat →
      exec .call s = raise { s with sp := s.sp - 1#8 } (.stackOverflow (s.sp - 1#8) s.pc)) ∧
    (s.sp ≠ 0#8 → s.sp.toNat - 1 ≠ s.pc.toNat → 256 ≤ s.pc.toNat + 2 →
      exec .call s = raise { s with sp := s.sp - 1#8 } (.outOfBoundsAddress .returnAddress (s.pc.toNat + 2))) ∧
    (s.sp ≠ 0#8 → s.sp.toNat - 1 ≠ s.pc.toNat → s.pc.toNat + 2 < 256 → 8 ≤ s.callIndex →
      exec .call s = raise { s with
        sp := s.sp - 1#8
        mem := s.mem.write (s.sp.toNat - 1) (BitVec.ofNat 8 (s.pc.toNat + 2)) } (.outOfBoundsAddress .regIndex (s.callIndex)))

/-! ### Rules about more than one instruction -/

/-- 43_stack.md R142: a PUSH followed by a POP into any register gives that register the pushed value and `sp` its value before the push, when
the pushed byte did not fall on the POP's own bytes. -/
def Obligations.PushThenPopMovesTheValue : Prop :=
  ∀ s : State, Inv s → s.status = .running → s.mem.read s.pc.toNat = 0x45#8 → (s.mem.read (s.pc.toNat + 1)).toNat < 8 →
    s.mem.read (s.pc.toNat + 2) = 0x46#8 → (s.mem.read (s.pc.toNat + 3)).toNat < 8 → s.pc.toNat + 4 ≤ s.sp.toNat - 1 →
    ∃ t u, step s = .next t ∧ step t = .next u ∧ u.status = .running ∧ u.sp = s.sp ∧ u.pc.toNat = s.pc.toNat + 4 ∧
      u.reg (s.mem.read (s.pc.toNat + 3)).toNat = s.reg (s.mem.read (s.pc.toNat + 1)).toNat ∧
      ∀ j, j ≠ (s.mem.read (s.pc.toNat + 3)).toNat → u.reg j = s.reg j

/-- 44_call_return.md R152: after a CALL at `p` that succeeds, a RET in any later state with the same `sp` and the same `M[sp]` goes to `p + 2`
and restores `sp` to its value before the CALL. -/
def Obligations.ReturnGoesToAfterTheCall : Prop :=
  ∀ s t r : State, Inv s → s.mem.read s.pc.toNat = 0x50#8 → step s = .next t → t.status = .running →
    r.status = .running → r.pc.toNat < 256 → r.mem.read r.pc.toNat = 0x11#8 → r.sp = t.sp →
    r.mem.read t.sp.toNat = t.mem.read t.sp.toNat →
    ∃ u, step r = .next u ∧ u.status = .running ∧ u.pc.toNat = s.pc.toNat + 2 ∧ u.sp = s.sp

/-- 70_reset_and_hazards.md R196, 20_memory.md R63: a PUSH whose decremented `sp` is exactly `pc + 2` overwrites the opcode byte of the next
instruction, and the next step executes the pushed value as an opcode. -/
def Obligations.PushOntoTheNextOpcode : Prop :=
  ∀ s : State, s.mem.wf → s.status = .running → s.mem.read s.pc.toNat = 0x45#8 → (s.mem.read (s.pc.toNat + 1)).toNat < 8 →
    s.sp.toNat = s.pc.toNat + 3 →
    ∃ t, step s = .next t ∧ t.pc.toNat = s.pc.toNat + 2 ∧ t.sp.toNat = s.pc.toNat + 2 ∧ t.status = .running ∧
      ∀ i, decodeOpcode (s.reg (s.mem.read (s.pc.toNat + 1)).toNat) = some i →
        step t = exec i { t with ir := s.reg (s.mem.read (s.pc.toNat + 1)).toNat }

/-- 44_call_return.md R151, 70_reset_and_hazards.md R197: when the decremented `sp` is `pc + 1`, CALL overwrites its own operand byte with
`pc + 2` and reads that as the register index: from `pc = 6` up it faults, below that it jumps to `x[pc + 2]`. -/
def Obligations.CallOverItsOwnOperand : Prop :=
  ∀ s : State, s.mem.wf → s.status = .running → s.pc.toNat + 2 < 256 → s.mem.read s.pc.toNat = 0x50#8 →
    s.sp.toNat = s.pc.toNat + 2 →
    ∃ t, step s = .next t ∧ t.sp.toNat = s.pc.toNat + 1 ∧ (t.mem.read (s.pc.toNat + 1)).toNat = s.pc.toNat + 2 ∧
      (6 ≤ s.pc.toNat → t.status = .faulted ∧ t.pc = s.pc ∧
        t.fault = some ⟨.outOfBoundsAddress .regIndex (s.pc.toNat + 2), s.pc⟩) ∧
      (s.pc.toNat ≤ 5 → t.status = .running ∧ t.pc.toNat = (s.reg (s.pc.toNat + 2)).toNat)

/-- 40_dispatcher.md R98: a chain of CALLs that each succeed is never longer than the starting `sp`, so a CALL loop is not a hang. -/
def Obligations.CallChainIsBounded : Prop :=
  ∀ (n : Nat) (f : Nat → State),
    (∀ k < n, (f k).mem.read (f k).pc.toNat = 0x50#8 ∧ step (f k) = .next (f (k + 1)) ∧ (f (k + 1)).status = .running) →
    n ≤ (f 0).sp.toNat ∧ (f n).sp.toNat + n = (f 0).sp.toNat

/-- 43_stack.md R142, 40_dispatcher.md R98: from a state in which the invariant holds, a chain of POPs and RETs that each succeed is never
longer than the bytes on the stack, `0xF4 - sp`: the next one underflows. -/
def Obligations.PopChainIsBounded : Prop :=
  ∀ (n : Nat) (f : Nat → State), Inv (f 0) →
    (∀ k < n, (f k).mem.read (f k).pc.toNat ∈ [0x46#8, 0x11#8] ∧ step (f k) = .next (f (k + 1)) ∧ (f (k + 1)).status = .running) →
    (f 0).sp.toNat + n ≤ 0xF4 ∧ (f n).sp.toNat = (f 0).sp.toNat + n

/-- 10_state.md R33, R40: the value of `ir` before a step has no effect on what the step does to any other piece of state. -/
def Obligations.IrIsUnobservable : Prop :=
  ∀ (s t : State) (b : Byte), step s = .next t →
    ∃ t', step { s with ir := b } = .next t' ∧ { t' with ir := t.ir } = t

/-- 60_exceptions.md R176: the program cannot read the output back: what was emitted before has no effect on a step, which only appends. -/
def Obligations.OutputIsNeverReadBack : Prop :=
  ∀ (s t : State) (o : List Byte), step s = .next t →
    ∃ e : List Byte, t.out = s.out ++ e ∧ step { s with out := o } = .next { t with out := o ++ e }

/-- 40_dispatcher.md R98, decision D9: every run that starts RUNNING ends in exactly one of three ways: halted, faulted, or running forever. -/
def Obligations.RunEndsInExactlyOneWay : Prop :=
  ∀ s : State, s.status = .running →
    (EndsWell s ∨ EndsInFault s ∨ RunsForever s) ∧ ¬(EndsWell s ∧ EndsInFault s) ∧ ¬(EndsWell s ∧ RunsForever s) ∧
      ¬(EndsInFault s ∧ RunsForever s)

/-! ### The invariant -/

/-- 10_state.md R41: the invariant holds of the state after reset. -/
def Obligations.InvAtReset : Prop := Inv State.reset

/-- 10_state.md R26, R30, R35, 20_memory.md R52, 60_exceptions.md R168: every step keeps the invariant: memory in canonical form (the
model's representation, Log 4), `pc` at most 256, `sp` at most 244, a fault record exactly when FAULTED and with the final `pc`. -/
def Obligations.StepKeepsInv : Prop := ∀ s t : State, Inv s → step s = .next t → Inv t

/-- 10_state.md R26, R30, R35, 20_memory.md R52, R54, 60_exceptions.md R168: the invariant holds of every state that any run of any loaded
image reaches. Which images load is the spec's decision D15 as the model reads it (Log 11); the canonical form of memory in the invariant is
the model's representation (Log 4). -/
def Obligations.InvOfEveryReachableState : Prop :=
  ∀ (image : List Byte) (s t : State), State.load image = some s → Reaches s t → Inv t

/-- 60_exceptions.md R170 (Log 14): over every state in which the invariant holds, the exit status is 0 exactly when HALTED, non-zero exactly
when there is a fault, and there is none exactly while RUNNING. -/
def Obligations.ExitStatusFollowsStatus : Prop :=
  ∀ s : State, Inv s → (s.exitStatus = some .zero ↔ s.status = .halted) ∧ (s.exitStatus = some .nonZero ↔ s.fault.isSome) ∧
    (s.exitStatus = none ↔ s.status = .running)

/-- 20_memory.md R50 (Log 4): two memories in canonical form that read alike at every address are the same memory. -/
def Obligations.EqualReadsEqualMemories : Prop :=
  ∀ m m' : Memory, m.wf → m'.wf → (∀ a, m.read a = m'.read a) → m = m'

/-! ### The arithmetic primitives -/

/-- 41_alu.md R110: the source's loop for `add` ends with exactly `a + b`, within as many turns as the sum has bits. -/
def Obligations.AddLoopGivesTheExactSum : Prop :=
  ∀ n a b : Nat, a + b < 2 ^ n → addLoop n a b = some (add a b)

/-- 41_alu.md R111: for `b <= a` the source's loop for `subtract` ends with exactly `a - b`; for `b > a` it never ends, and `subtract` raises
`SubtractUnderflow(a, b)` instead (decision D6). -/
def Obligations.SubtractLoopEndsExactlyWhenNoUnderflow : Prop :=
  ∀ n a b : Nat,
    (b ≤ a → a < 2 ^ n → subtractLoop n a b = some (a - b) ∧ subtract a b = .ok (a - b)) ∧
    (a < b → subtractLoop n a b = none ∧ subtract a b = .error (.subtractUnderflow a b))

/-- 41_alu.md R112, decision D19: the long-multiplication loop ends with exactly the product, within as many turns as `b` has bits. -/
def Obligations.MultiplyLoopGivesTheProduct : Prop :=
  ∀ n a b : Nat, b < 2 ^ n → multiplyLoop n 0 a b = some (multiply a b)

/-- 41_alu.md R113: for magnitudes up to 255 and a divisor that is not 0, restoring division gives the quotient truncated toward zero. -/
def Obligations.DivideTruncatesTowardZero : Prop :=
  ∀ a b : Int, a.natAbs ≤ 255 → 1 ≤ b.natAbs → b.natAbs ≤ 255 → divide a b = .value (Int.tdiv a b)
end

