-- ==== Sys2Proof/Laws/Memory.lean ====
section
/-! SUPPORT. The laws of memory: what a read after a write gives, and that every operation keeps the canonical form. -/

namespace Sys2Proof.Machine

/-! ### Cells -/

/-- The byte just stored is read back. -/
theorem lookupCell_insertCell_same (cs : List Host.Cell) (hs : cs.Pairwise (fun c d => c.1 < d.1)) (a : Nat) (v : Byte) :
    lookupCell (insertCell cs a v) a = v := by
  induction cs with
  | nil => by_cases hv : v = 0#8 <;> simp [insertCell, lookupCell, hv]
  | cons c rest ih =>
    obtain ⟨b, w⟩ := c
    obtain ⟨hb, hrest⟩ := List.pairwise_cons.mp hs
    have absent : ∀ l : List Host.Cell, (∀ d ∈ l, a < d.1) → lookupCell l a = 0#8 := by
      intro l hl
      induction l with
      | nil => rfl
      | cons d l ihl =>
        have := hl d (by simp)
        simp only [lookupCell, if_neg (Nat.ne_of_lt this)]
        exact ihl fun e he => hl e (by simp [he])
    unfold insertCell
    split
    · split
      · subst v
        exact absent _ fun d hd => by
          rcases List.mem_cons.mp hd with rfl | hd
          · assumption
          · exact Nat.lt_trans ‹a < b› (hb d hd)
      · simp [lookupCell]
    · split
      · subst a
        split
        · subst v
          exact absent _ fun d hd => hb d hd
        · simp [lookupCell]
      · simp only [lookupCell, if_neg ‹¬a = b›]
        exact ih hrest

/-- Storing at one address leaves every other address alone. -/
theorem lookupCell_insertCell_other (cs : List Host.Cell) {a a' : Nat} (h : a' ≠ a) (v : Byte) :
    lookupCell (insertCell cs a v) a' = lookupCell cs a' := by
  induction cs with
  | nil => by_cases hv : v = 0#8 <;> simp [insertCell, lookupCell, hv, h]
  | cons c rest ih =>
    obtain ⟨b, w⟩ := c
    unfold insertCell
    split
    · split <;> simp [lookupCell, h]
    · split
      · subst a
        split <;> simp [lookupCell, h]
      · simp [lookupCell, ih]

/-- A cell of the result was there before or is the one stored. -/
theorem mem_insertCell {cs : List Host.Cell} {a : Nat} {v : Byte} {c : Host.Cell} (h : c ∈ insertCell cs a v) :
    c ∈ cs ∨ (c = (a, v) ∧ v ≠ 0#8) := by
  induction cs with
  | nil =>
    unfold insertCell at h
    split at h
    · cases h
    · exact .inr ⟨by simpa using h, ‹_›⟩
  | cons d rest ih =>
    obtain ⟨b, w⟩ := d
    unfold insertCell at h
    split at h
    · split at h
      · exact .inl h
      · rcases List.mem_cons.mp h with h | h
        · exact .inr ⟨h, ‹_›⟩
        · exact .inl h
    · split at h
      · split at h
        · exact .inl (by simp [h])
        · rcases List.mem_cons.mp h with h | h
          · exact .inr ⟨h, ‹_›⟩
          · exact .inl (by simp [h])
      · rcases List.mem_cons.mp h with h | h
        · exact .inl (by simp [h])
        · rcases ih h with h | h
          · exact .inl (by simp [h])
          · exact .inr h

/-- Storing keeps the addresses strictly rising. -/
theorem insertCell_pairwise {cs : List Host.Cell} (hs : cs.Pairwise (fun c d => c.1 < d.1)) (a : Nat) (v : Byte) :
    (insertCell cs a v).Pairwise (fun c d => c.1 < d.1) := by
  induction cs with
  | nil => by_cases hv : v = 0#8 <;> simp [insertCell, hv]
  | cons d rest ih =>
    obtain ⟨b, w⟩ := d
    obtain ⟨hb, hrest⟩ := List.pairwise_cons.mp hs
    unfold insertCell
    split
    · split
      · exact hs
      · refine List.pairwise_cons.mpr ⟨fun d hd => ?_, hs⟩
        rcases List.mem_cons.mp hd with rfl | hd
        · assumption
        · exact Nat.lt_trans ‹a < b› (hb d hd)
    · split
      · subst a
        split
        · exact hrest
        · exact List.pairwise_cons.mpr ⟨hb, hrest⟩
      · refine List.pairwise_cons.mpr ⟨fun d hd => ?_, ih hrest⟩
        rcases mem_insertCell hd with hd | ⟨rfl, -⟩
        · exact hb d hd
        · show b < a
          omega

/-! ### Memory -/

/-- Reading the byte just written gives it. -/
theorem Memory.read_write_same {m : Memory} (h : m.wf) (a : Nat) (v : Byte) : (m.write a v).read a = v :=
  lookupCell_insertCell_same m.cells h.1 a v

/-- A write changes exactly one cell (20_memory.md R57). -/
theorem Memory.read_write_other (m : Memory) {a a' : Nat} (h : a' ≠ a) (v : Byte) : (m.write a v).read a' = m.read a' :=
  lookupCell_insertCell_other m.cells h v

/-- A write inside the address space keeps the canonical form. -/
theorem Memory.write_wf {m : Memory} (h : m.wf) {a : Nat} (ha : a < Config.memSize) (v : Byte) : (m.write a v).wf := by
  refine ⟨insertCell_pairwise h.1 a v, fun c hc => ?_⟩
  rcases mem_insertCell hc with hc | ⟨rfl, hv⟩
  · exact h.2 c hc
  · exact ⟨hv, ha⟩

/-- Memory as reset leaves it is in canonical form. -/
theorem State.reset_mem_wf : State.reset.mem.wf := by
  simp [Memory.wf, State.reset]

/-- Placing bytes keeps the canonical form. -/
theorem Memory.place_wf {m : Memory} (h : m.wf) (a : Nat) (bs : List Byte) : (m.place a bs).wf := by
  induction bs generalizing m a with
  | nil => exact h
  | cons b bs ih =>
    unfold Memory.place
    split
    · exact ih (Memory.write_wf h ‹_› b) (a + 1)
    · exact h

/-- Loading an image that fits keeps the canonical form. -/
theorem Memory.loadFrom_wf {m : Memory} (h : m.wf) (k : Nat) (image : List Byte) (hk : k + image.length ≤ Config.memSize) :
    (m.loadFrom k image).wf := by
  induction image generalizing m k with
  | nil => exact h
  | cons b bs ih =>
    rw [List.length_cons] at hk
    exact ih (Memory.write_wf h (by omega) b) (k + 1) (by omega)

end Sys2Proof.Machine
end

