-- ==== Sys2Proof/Laws/State.lean ====
section
/-! SUPPORT. One lemma per field and per update of the state, each true by definition, so that no later proof unfolds an update. -/

namespace Sys2Proof.Machine

/-! ### faultedBy -/

@[simp] theorem State.faultedBy_regs (s : State) (c : Cause) : (s.faultedBy c).regs = s.regs := rfl
@[simp] theorem State.faultedBy_pc (s : State) (c : Cause) : (s.faultedBy c).pc = s.pc := rfl
@[simp] theorem State.faultedBy_sp (s : State) (c : Cause) : (s.faultedBy c).sp = s.sp := rfl
@[simp] theorem State.faultedBy_ir (s : State) (c : Cause) : (s.faultedBy c).ir = s.ir := rfl
@[simp] theorem State.faultedBy_status (s : State) (c : Cause) : (s.faultedBy c).status = .faulted := rfl
@[simp] theorem State.faultedBy_fault (s : State) (c : Cause) : (s.faultedBy c).fault = some ⟨c, s.pc⟩ := rfl
@[simp] theorem State.faultedBy_out (s : State) (c : Cause) : (s.faultedBy c).out = s.out := rfl
@[simp] theorem State.faultedBy_mem (s : State) (c : Cause) : (s.faultedBy c).mem = s.mem := rfl

/-! ### setReg -/

@[simp] theorem State.setReg_regs (s : State) (i : Nat) (v : Byte) : (s.setReg i v).regs = s.regs.setIfInBounds i v := rfl
@[simp] theorem State.setReg_pc (s : State) (i : Nat) (v : Byte) : (s.setReg i v).pc = s.pc := rfl
@[simp] theorem State.setReg_sp (s : State) (i : Nat) (v : Byte) : (s.setReg i v).sp = s.sp := rfl
@[simp] theorem State.setReg_ir (s : State) (i : Nat) (v : Byte) : (s.setReg i v).ir = s.ir := rfl
@[simp] theorem State.setReg_status (s : State) (i : Nat) (v : Byte) : (s.setReg i v).status = s.status := rfl
@[simp] theorem State.setReg_fault (s : State) (i : Nat) (v : Byte) : (s.setReg i v).fault = s.fault := rfl
@[simp] theorem State.setReg_out (s : State) (i : Nat) (v : Byte) : (s.setReg i v).out = s.out := rfl
@[simp] theorem State.setReg_mem (s : State) (i : Nat) (v : Byte) : (s.setReg i v).mem = s.mem := rfl

/-! ### setPc -/

@[simp] theorem State.setPc_regs (s : State) (n : Nat) : (s.setPc n).regs = s.regs := rfl
@[simp] theorem State.setPc_pc (s : State) (n : Nat) : (s.setPc n).pc = BitVec.ofNat 9 n := rfl
@[simp] theorem State.setPc_sp (s : State) (n : Nat) : (s.setPc n).sp = s.sp := rfl
@[simp] theorem State.setPc_ir (s : State) (n : Nat) : (s.setPc n).ir = s.ir := rfl
@[simp] theorem State.setPc_status (s : State) (n : Nat) : (s.setPc n).status = s.status := rfl
@[simp] theorem State.setPc_fault (s : State) (n : Nat) : (s.setPc n).fault = s.fault := rfl
@[simp] theorem State.setPc_out (s : State) (n : Nat) : (s.setPc n).out = s.out := rfl
@[simp] theorem State.setPc_mem (s : State) (n : Nat) : (s.setPc n).mem = s.mem := rfl

/-! ### advance -/

@[simp] theorem State.advance_regs (s : State) (i : Instr) : (s.advance i).regs = s.regs := rfl
@[simp] theorem State.advance_pc (s : State) (i : Instr) : (s.advance i).pc = BitVec.ofNat 9 (add s.pc.toNat i.length) := rfl
@[simp] theorem State.advance_sp (s : State) (i : Instr) : (s.advance i).sp = s.sp := rfl
@[simp] theorem State.advance_ir (s : State) (i : Instr) : (s.advance i).ir = s.ir := rfl
@[simp] theorem State.advance_status (s : State) (i : Instr) : (s.advance i).status = s.status := rfl
@[simp] theorem State.advance_fault (s : State) (i : Instr) : (s.advance i).fault = s.fault := rfl
@[simp] theorem State.advance_out (s : State) (i : Instr) : (s.advance i).out = s.out := rfl
@[simp] theorem State.advance_mem (s : State) (i : Instr) : (s.advance i).mem = s.mem := rfl

/-! ### incrementSp -/

@[simp] theorem State.incrementSp_regs (s : State) : (s.incrementSp).regs = s.regs := rfl
@[simp] theorem State.incrementSp_pc (s : State) : (s.incrementSp).pc = s.pc := rfl
@[simp] theorem State.incrementSp_sp (s : State) : (s.incrementSp).sp = lowByte (add s.sp.toNat 1) := rfl
@[simp] theorem State.incrementSp_ir (s : State) : (s.incrementSp).ir = s.ir := rfl
@[simp] theorem State.incrementSp_status (s : State) : (s.incrementSp).status = s.status := rfl
@[simp] theorem State.incrementSp_fault (s : State) : (s.incrementSp).fault = s.fault := rfl
@[simp] theorem State.incrementSp_out (s : State) : (s.incrementSp).out = s.out := rfl
@[simp] theorem State.incrementSp_mem (s : State) : (s.incrementSp).mem = s.mem := rfl

/-! ### output -/

@[simp] theorem State.output_regs (s : State) (v : Byte) : (s.output v).regs = s.regs := rfl
@[simp] theorem State.output_pc (s : State) (v : Byte) : (s.output v).pc = s.pc := rfl
@[simp] theorem State.output_sp (s : State) (v : Byte) : (s.output v).sp = s.sp := rfl
@[simp] theorem State.output_ir (s : State) (v : Byte) : (s.output v).ir = s.ir := rfl
@[simp] theorem State.output_status (s : State) (v : Byte) : (s.output v).status = s.status := rfl
@[simp] theorem State.output_fault (s : State) (v : Byte) : (s.output v).fault = s.fault := rfl
@[simp] theorem State.output_out (s : State) (v : Byte) : (s.output v).out = s.out ++ [v] := rfl
@[simp] theorem State.output_mem (s : State) (v : Byte) : (s.output v).mem = s.mem := rfl

/-! ### halt -/

@[simp] theorem State.halt_regs (s : State) : (s.halt).regs = s.regs := rfl
@[simp] theorem State.halt_pc (s : State) : (s.halt).pc = s.pc := rfl
@[simp] theorem State.halt_sp (s : State) : (s.halt).sp = s.sp := rfl
@[simp] theorem State.halt_ir (s : State) : (s.halt).ir = s.ir := rfl
@[simp] theorem State.halt_status (s : State) : (s.halt).status = .halted := rfl
@[simp] theorem State.halt_fault (s : State) : (s.halt).fault = s.fault := rfl
@[simp] theorem State.halt_out (s : State) : (s.halt).out = s.out := rfl
@[simp] theorem State.halt_mem (s : State) : (s.halt).mem = s.mem := rfl

/-! ### placeAtPc -/

@[simp] theorem State.placeAtPc_regs (s : State) (bs : List Byte) : (s.placeAtPc bs).regs = s.regs := rfl
@[simp] theorem State.placeAtPc_pc (s : State) (bs : List Byte) : (s.placeAtPc bs).pc = s.pc := rfl
@[simp] theorem State.placeAtPc_sp (s : State) (bs : List Byte) : (s.placeAtPc bs).sp = s.sp := rfl
@[simp] theorem State.placeAtPc_ir (s : State) (bs : List Byte) : (s.placeAtPc bs).ir = s.ir := rfl
@[simp] theorem State.placeAtPc_status (s : State) (bs : List Byte) : (s.placeAtPc bs).status = s.status := rfl
@[simp] theorem State.placeAtPc_fault (s : State) (bs : List Byte) : (s.placeAtPc bs).fault = s.fault := rfl
@[simp] theorem State.placeAtPc_out (s : State) (bs : List Byte) : (s.placeAtPc bs).out = s.out := rfl
@[simp] theorem State.placeAtPc_mem (s : State) (bs : List Byte) : (s.placeAtPc bs).mem = s.mem.place s.pc.toNat bs := rfl

/-! ### The state after reset -/

@[simp] theorem State.reset_pc : State.reset.pc = 0#9 := rfl
@[simp] theorem State.reset_sp : State.reset.sp = 0xF4#8 := rfl
@[simp] theorem State.reset_ir : State.reset.ir = 0#8 := rfl
@[simp] theorem State.reset_status : State.reset.status = .running := rfl
@[simp] theorem State.reset_fault : State.reset.fault = none := rfl
@[simp] theorem State.reset_out : State.reset.out = [] := rfl
@[simp] theorem State.reset_mem : State.reset.mem = ⟨[]⟩ := rfl

/-! ### Reading one register -/

/-- The other updates leave every register's value alone. -/
@[simp] theorem State.faultedBy_reg (s : State) (c : Cause) (i : Nat) : (s.faultedBy c).reg i = s.reg i := rfl
@[simp] theorem State.setPc_reg (s : State) (n i : Nat) : (s.setPc n).reg i = s.reg i := rfl
@[simp] theorem State.advance_reg (s : State) (j : Instr) (i : Nat) : (s.advance j).reg i = s.reg i := rfl
@[simp] theorem State.incrementSp_reg (s : State) (i : Nat) : s.incrementSp.reg i = s.reg i := rfl
@[simp] theorem State.output_reg (s : State) (v : Byte) (i : Nat) : (s.output v).reg i = s.reg i := rfl
@[simp] theorem State.halt_reg (s : State) (i : Nat) : s.halt.reg i = s.reg i := rfl

/-- A register just written holds what was written. -/
theorem State.reg_setReg_same (s : State) {i : Nat} (h : i < Config.nReg) (v : Byte) : (s.setReg i v).reg i = v := by
  simp [State.reg, State.setReg, Vector.getD, h]

/-- Writing one register leaves every other one alone. -/
theorem State.reg_setReg_other (s : State) {i j : Nat} (h : i ≠ j) (v : Byte) : (s.setReg i v).reg j = s.reg j := by
  by_cases hj : j < Config.nReg <;> simp [State.reg, State.setReg, Vector.getD, hj, h]

end Sys2Proof.Machine
end

