-- ==== Sys2Proof/Laws/Ops.lean ====
section
/-! SUPPORT. One spec lemma per shared operation: what it does when its check holds (`_of_…`), and everything it can do when it answers a
next state (`_next`). Later proofs cite these and do not unfold the operations. -/

namespace Sys2Proof.Machine

variable {s t : State} {a : Nat} {i v : Byte}

/-! ### Sizes, lengths, faults -/

@[simp] theorem Instr_length_ldi : Instr.ldi.length = 3 := rfl
@[simp] theorem Instr_length_prn : Instr.prn.length = 2 := rfl
@[simp] theorem Instr_length_hlt : Instr.hlt.length = 1 := rfl
@[simp] theorem Instr_length_add : Instr.add.length = 3 := rfl
@[simp] theorem Instr_length_mul : Instr.mul.length = 3 := rfl
@[simp] theorem Instr_length_pop : Instr.pop.length = 2 := rfl
@[simp] theorem Instr_length_push : Instr.push.length = 2 := rfl
@[simp] theorem Instr_length_ret : Instr.ret.length = 1 := rfl
@[simp] theorem Instr_length_call : Instr.call.length = 2 := rfl

@[simp] theorem add_eq (a b : Nat) : add a b = a + b := rfl
@[simp] theorem multiply_eq (a b : Nat) : multiply a b = a * b := rfl
@[simp] theorem operandAddr_eq (s : State) (k : Nat) : s.operandAddr k = s.pc.toNat + k := rfl
@[simp] theorem returnAddr_eq (s : State) : s.returnAddr = s.pc.toNat + 2 := rfl

theorem subtract_of_le {a b : Nat} (h : b ≤ a) : subtract a b = .ok (a - b) := by simp [subtract, Nat.not_lt.mpr h]
theorem subtract_of_lt {a b : Nat} (h : a < b) : subtract a b = .error (.subtractUnderflow a b) := by simp [subtract, h]

/-- Taking a fault answers the one faulted state. -/
@[simp] theorem raise_next {c : Cause} : raise s c = .next t ↔ t = s.faultedBy c := by
  simp [raise, eq_comm]

/-! ### The memory port -/

theorem withMemRead_of_lt {k : Byte → Result} (h : a < 256) : withMemRead s a k = k (s.mem.read a) := by
  simp [withMemRead, h]

theorem withMemRead_of_ge {k : Byte → Result} (h : 256 ≤ a) :
    withMemRead s a k = raise s (.outOfBoundsAddress .memAddress a) := by
  simp [withMemRead, Nat.not_lt.mpr h]

theorem withMemRead_next {k : Byte → Result} (h : withMemRead s a k = .next t) :
    (a < 256 ∧ k (s.mem.read a) = .next t) ∨ (256 ≤ a ∧ t = s.faultedBy (.outOfBoundsAddress .memAddress a)) := by
  rcases Nat.lt_or_ge a 256 with ha | ha
  · exact .inl ⟨ha, by rwa [withMemRead_of_lt ha] at h⟩
  · exact .inr ⟨ha, by rwa [withMemRead_of_ge ha, raise_next] at h⟩

theorem withMemWrite_of_lt {k : State → Result} (h : a < 256) :
    withMemWrite s a v k = k { s with mem := s.mem.write a v } := by
  simp [withMemWrite, h]

theorem withMemWrite_of_ge {k : State → Result} (h : 256 ≤ a) :
    withMemWrite s a v k = raise s (.outOfBoundsAddress .memAddress a) := by
  simp [withMemWrite, Nat.not_lt.mpr h]

theorem withMemWrite_next {k : State → Result} (h : withMemWrite s a v k = .next t) :
    (a < 256 ∧ k { s with mem := s.mem.write a v } = .next t) ∨
      (256 ≤ a ∧ t = s.faultedBy (.outOfBoundsAddress .memAddress a)) := by
  rcases Nat.lt_or_ge a 256 with ha | ha
  · exact .inl ⟨ha, by rwa [withMemWrite_of_lt ha] at h⟩
  · exact .inr ⟨ha, by rwa [withMemWrite_of_ge ha, raise_next] at h⟩

/-! ### Registers -/

theorem withRegRead_of_lt {k : Byte → Result} (h : i.toNat < 8) : withRegRead s i k = k (s.reg i.toNat) := by
  simp only [withRegRead, h, if_true]

theorem withRegRead_of_ge {k : Byte → Result} (h : 8 ≤ i.toNat) :
    withRegRead s i k = raise s (.outOfBoundsAddress .regIndex i.toNat) := by
  simp only [withRegRead, Nat.not_lt.mpr h, if_false]

theorem withRegRead_next {k : Byte → Result} (h : withRegRead s i k = .next t) :
    (i.toNat < 8 ∧ k (s.reg i.toNat) = .next t) ∨
      (8 ≤ i.toNat ∧ t = s.faultedBy (.outOfBoundsAddress .regIndex i.toNat)) := by
  rcases Nat.lt_or_ge i.toNat 8 with hi | hi
  · exact .inl ⟨hi, by rwa [withRegRead_of_lt hi] at h⟩
  · exact .inr ⟨hi, by rwa [withRegRead_of_ge hi, raise_next] at h⟩

theorem withRegWrite_of_lt {k : State → Result} (h : i.toNat < 8) :
    withRegWrite s i v k = k (s.setReg i.toNat v) := by
  simp only [withRegWrite, h, if_true]

theorem withRegWrite_of_ge {k : State → Result} (h : 8 ≤ i.toNat) :
    withRegWrite s i v k = raise s (.outOfBoundsAddress .regIndex i.toNat) := by
  simp only [withRegWrite, Nat.not_lt.mpr h, if_false]

theorem withRegWrite_next {k : State → Result} (h : withRegWrite s i v k = .next t) :
    (i.toNat < 8 ∧ k (s.setReg i.toNat v) = .next t) ∨
      (8 ≤ i.toNat ∧ t = s.faultedBy (.outOfBoundsAddress .regIndex i.toNat)) := by
  rcases Nat.lt_or_ge i.toNat 8 with hi | hi
  · exact .inl ⟨hi, by rwa [withRegWrite_of_lt hi] at h⟩
  · exact .inr ⟨hi, by rwa [withRegWrite_of_ge hi, raise_next] at h⟩

/-! ### The stack pointer -/

theorem withSpDecremented_of_pos {k : State → Result} (h : 0 < s.sp.toNat) :
    withSpDecremented s k = k { s with sp := lowByte (s.sp.toNat - 1) } := by
  simp [withSpDecremented, subtract_of_le (Nat.succ_le_of_lt h)]

theorem withSpDecremented_of_zero {k : State → Result} (h : s.sp.toNat = 0) :
    withSpDecremented s k = raise s (.subtractUnderflow 0 1) := by
  simp [withSpDecremented, h, subtract_of_lt]

theorem withSpDecremented_next {k : State → Result} (h : withSpDecremented s k = .next t) :
    (0 < s.sp.toNat ∧ k { s with sp := lowByte (s.sp.toNat - 1) } = .next t) ∨
      (s.sp.toNat = 0 ∧ t = s.faultedBy (.subtractUnderflow 0 1)) := by
  rcases Nat.eq_zero_or_pos s.sp.toNat with hz | hp
  · exact .inr ⟨hz, by rwa [withSpDecremented_of_zero hz, raise_next] at h⟩
  · exact .inl ⟨hp, by rwa [withSpDecremented_of_pos hp] at h⟩

/-- The decremented stack pointer, as a number. -/
theorem toNat_lowByte_pred (h : 0 < s.sp.toNat) : (lowByte (s.sp.toNat - 1)).toNat = s.sp.toNat - 1 := by
  have := s.sp.isLt
  simp only [lowByte, BitVec.toNat_ofNat]
  omega

/-- The incremented stack pointer, as a number, where it fits. -/
theorem toNat_lowByte_succ (h : s.sp.toNat < 255) : (lowByte (add s.sp.toNat 1)).toNat = s.sp.toNat + 1 := by
  simp only [lowByte, add_eq, BitVec.toNat_ofNat]
  omega

theorem withStackNotEmpty_of_ne {r : Result} (h : s.sp ≠ 0xF4#8) : withStackNotEmpty s r = r := by
  simp [withStackNotEmpty, h]

theorem withStackNotEmpty_of_eq {r : Result} (h : s.sp = 0xF4#8) :
    withStackNotEmpty s r = raise s (.stackUnderflow 0xF4#8) := by
  simp [withStackNotEmpty, h]

theorem withStackNotEmpty_next {r : Result} (h : withStackNotEmpty s r = .next t) :
    (s.sp ≠ 0xF4#8 ∧ r = .next t) ∨ (s.sp = 0xF4#8 ∧ t = s.faultedBy (.stackUnderflow 0xF4#8)) := by
  by_cases he : s.sp = 0xF4#8
  · exact .inr ⟨he, by rwa [withStackNotEmpty_of_eq he, raise_next] at h⟩
  · exact .inl ⟨he, by rwa [withStackNotEmpty_of_ne he] at h⟩

/-! ### Operands -/

theorem withNamedReg_of_lt {k : Byte → Byte → Result} (h : a < 256) (hr : (s.mem.read a).toNat < 8) :
    withNamedReg s a k = k (s.mem.read a) (s.reg (s.mem.read a).toNat) := by
  rw [withNamedReg, withMemRead_of_lt h, withRegRead_of_lt hr]

theorem withNamedReg_of_ge {k : Byte → Byte → Result} (h : 256 ≤ a) :
    withNamedReg s a k = raise s (.outOfBoundsAddress .memAddress a) := withMemRead_of_ge h

theorem withNamedReg_of_index_ge {k : Byte → Byte → Result} (h : a < 256) (hr : 8 ≤ (s.mem.read a).toNat) :
    withNamedReg s a k = raise s (.outOfBoundsAddress .regIndex (s.mem.read a).toNat) := by
  rw [withNamedReg, withMemRead_of_lt h, withRegRead_of_ge hr]

theorem withNamedReg_next {k : Byte → Byte → Result} (h : withNamedReg s a k = .next t) :
    (a < 256 ∧ (s.mem.read a).toNat < 8 ∧ k (s.mem.read a) (s.reg (s.mem.read a).toNat) = .next t) ∨
      (256 ≤ a ∧ t = s.faultedBy (.outOfBoundsAddress .memAddress a)) ∨
      (a < 256 ∧ 8 ≤ (s.mem.read a).toNat ∧ t = s.faultedBy (.outOfBoundsAddress .regIndex (s.mem.read a).toNat)) := by
  rcases withMemRead_next h with ⟨ha, h⟩ | h
  · rcases withRegRead_next h with h | h
    · exact .inl ⟨ha, h⟩
    · exact .inr (.inr ⟨ha, h⟩)
  · exact .inr (.inl h)

theorem withOperand_of_lt {n : Nat} {k : Byte → Result} (h : s.pc.toNat + n < 256) :
    withOperand s n k = k (s.mem.read (s.pc.toNat + n)) := withMemRead_of_lt h

theorem withOperand_of_ge {n : Nat} {k : Byte → Result} (h : 256 ≤ s.pc.toNat + n) :
    withOperand s n k = raise s (.outOfBoundsAddress .memAddress (s.pc.toNat + n)) := withMemRead_of_ge h

theorem withOperand_next {n : Nat} {k : Byte → Result} (h : withOperand s n k = .next t) :
    (s.pc.toNat + n < 256 ∧ k (s.mem.read (s.pc.toNat + n)) = .next t) ∨
      (256 ≤ s.pc.toNat + n ∧ t = s.faultedBy (.outOfBoundsAddress .memAddress (s.pc.toNat + n))) := withMemRead_next h

theorem withRegOperand_of_lt {n : Nat} {k : Byte → Result} (h : s.pc.toNat + n < 256)
    (hr : (s.mem.read (s.pc.toNat + n)).toNat < 8) :
    withRegOperand s n k = k (s.reg (s.mem.read (s.pc.toNat + n)).toNat) := withNamedReg_of_lt h hr

theorem withRegOperand_of_ge {n : Nat} {k : Byte → Result} (h : 256 ≤ s.pc.toNat + n) :
    withRegOperand s n k = raise s (.outOfBoundsAddress .memAddress (s.pc.toNat + n)) := withNamedReg_of_ge h

theorem withRegOperand_of_index_ge {n : Nat} {k : Byte → Result} (h : s.pc.toNat + n < 256)
    (hr : 8 ≤ (s.mem.read (s.pc.toNat + n)).toNat) :
    withRegOperand s n k = raise s (.outOfBoundsAddress .regIndex (s.mem.read (s.pc.toNat + n)).toNat) :=
  withNamedReg_of_index_ge h hr

theorem withRegOperand_next {n : Nat} {k : Byte → Result} (h : withRegOperand s n k = .next t) :
    (s.pc.toNat + n < 256 ∧ (s.mem.read (s.pc.toNat + n)).toNat < 8 ∧
        k (s.reg (s.mem.read (s.pc.toNat + n)).toNat) = .next t) ∨
      (256 ≤ s.pc.toNat + n ∧ t = s.faultedBy (.outOfBoundsAddress .memAddress (s.pc.toNat + n))) ∨
      (s.pc.toNat + n < 256 ∧ 8 ≤ (s.mem.read (s.pc.toNat + n)).toNat ∧
        t = s.faultedBy (.outOfBoundsAddress .regIndex (s.mem.read (s.pc.toNat + n)).toNat)) := withNamedReg_next h

/-! ### Fetch and dispatch -/

theorem withFetch_of_lt {k : State → Result} (h : s.pc.toNat < 256) :
    withFetch s k = k { s with ir := s.mem.read s.pc.toNat } := withMemRead_of_lt h

theorem withFetch_next {k : State → Result} (h : withFetch s k = .next t) :
    (s.pc.toNat < 256 ∧ k { s with ir := s.mem.read s.pc.toNat } = .next t) ∨
      (256 ≤ s.pc.toNat ∧ t = s.faultedBy (.outOfBoundsAddress .memAddress s.pc.toNat)) := withMemRead_next h

theorem lookup_next {f : Instr → State → Result} (h : lookup s f = .next t) :
    (∃ i, decodeOpcode s.ir = some i ∧ f i s = .next t) ∨
      (decodeOpcode s.ir = none ∧ t = s.faultedBy (.unknownInstruction s.ir s.pc)) := by
  unfold lookup at h
  split at h
  · exact .inl ⟨_, ‹_›, h⟩
  · exact .inr ⟨‹_›, by rwa [raise_next] at h⟩

theorem whenRunning_of_running {r : Result} (h : s.status = .running) : whenRunning s r = r := by
  simp [whenRunning, State.runningFlag, h]

theorem whenRunning_next {r : Result} (h : whenRunning s r = .next t) : s.status = .running ∧ r = .next t := by
  unfold whenRunning at h
  split at h
  · exact ⟨by simpa [State.runningFlag] using ‹s.runningFlag = true›, h⟩
  · split at h <;> cases h

end Sys2Proof.Machine
end

