-- ==== Sys2Proof/Laws/PerInstr.lean ====
section
/-! SUPPORT. A fact about every instruction as syntax, one lemma per constructor: the opcode table and the opcode bytes agree, and the number of
operand bytes of the format is the `N` in the opcode's two high bits, so that the length is the format's (30_encoding.md R70, R71, R75). -/

namespace Sys2Proof.Laws.OpcodeAgreesWithFormat

/-- The opcode byte decodes to the instruction, and its high bits give the operand bytes of the instruction's format. -/
def Statement (i : Instr) : Prop :=
  decodeOpcode i.opcode = some i ∧ i.length = i.operandCount + 1 ∧ (encode ⟨i, List.replicate i.operandCount 0#8⟩).length = i.length

theorem ldi : Statement .ldi := ⟨rfl, rfl, rfl⟩
theorem prn : Statement .prn := ⟨rfl, rfl, rfl⟩
theorem hlt : Statement .hlt := ⟨rfl, rfl, rfl⟩
theorem add : Statement .add := ⟨rfl, rfl, rfl⟩
theorem mul : Statement .mul := ⟨rfl, rfl, rfl⟩
theorem pop : Statement .pop := ⟨rfl, rfl, rfl⟩
theorem push : Statement .push := ⟨rfl, rfl, rfl⟩
theorem ret : Statement .ret := ⟨rfl, rfl, rfl⟩
theorem call : Statement .call := ⟨rfl, rfl, rfl⟩

end Sys2Proof.Laws.OpcodeAgreesWithFormat
end

