-- ==== Sys2Proof/Laws/Step.lean ====
section
/-! SUPPORT. What a step and what each instruction can do, once: every later proof splits on these and unfolds nothing. -/

namespace Sys2Proof.Machine

variable {s t : State}

/-- A step that answers a next state was taken while RUNNING, and is one of three things: the fetch faulted, the opcode is undefined, or
the handler of the opcode ran on the state with `ir` set. -/
theorem step_next (h : step s = .next t) :
    s.status = .running ∧
      ((256 ≤ s.pc.toNat ∧ t = s.faultedBy (.outOfBoundsAddress .memAddress s.pc.toNat)) ∨
        (s.pc.toNat < 256 ∧ decodeOpcode (s.mem.read s.pc.toNat) = none ∧
          t = State.faultedBy { s with ir := s.mem.read s.pc.toNat } (.unknownInstruction (s.mem.read s.pc.toNat) s.pc)) ∨
        (s.pc.toNat < 256 ∧ ∃ i, decodeOpcode (s.mem.read s.pc.toNat) = some i ∧
          exec i { s with ir := s.mem.read s.pc.toNat } = .next t)) := by
  obtain ⟨hr, h⟩ := whenRunning_next h
  refine ⟨hr, ?_⟩
  rcases withFetch_next h with ⟨hpc, h⟩ | h
  · rcases lookup_next h with ⟨i, hi, h⟩ | h
    · exact .inr (.inr ⟨hpc, i, hi, h⟩)
    · exact .inr (.inl ⟨hpc, h⟩)
  · exact .inl h

/-- LDI, when it answers a next state. -/
theorem execLdi_next (h : execLdi s = .next t) :
    (256 ≤ s.pc.toNat + 1 ∧ t = s.faultedBy (.outOfBoundsAddress .memAddress (s.pc.toNat + 1))) ∨
      (s.pc.toNat + 1 < 256 ∧ 256 ≤ s.pc.toNat + 2 ∧ t = s.faultedBy (.outOfBoundsAddress .memAddress (s.pc.toNat + 2))) ∨
      (s.pc.toNat + 2 < 256 ∧ 8 ≤ (s.mem.read (s.pc.toNat + 1)).toNat ∧
        t = s.faultedBy (.outOfBoundsAddress .regIndex (s.mem.read (s.pc.toNat + 1)).toNat)) ∨
      (s.pc.toNat + 2 < 256 ∧ (s.mem.read (s.pc.toNat + 1)).toNat < 8 ∧
        t = (s.setReg (s.mem.read (s.pc.toNat + 1)).toNat (s.mem.read (s.pc.toNat + 2))).advance .ldi) := by
  unfold execLdi at h
  rcases withOperand_next h with ⟨h1, h⟩ | h
  · rcases withOperand_next h with ⟨h2, h⟩ | ⟨h2, h⟩
    · rcases withRegWrite_next h with ⟨h3, h⟩ | h
      · cases h
        exact .inr (.inr (.inr ⟨h2, h3, rfl⟩))
      · exact .inr (.inr (.inl ⟨h2, h⟩))
    · exact .inr (.inl ⟨h1, h2, h⟩)
  · exact .inl h

/-- PRN, when it answers a next state. -/
theorem execPrn_next (h : execPrn s = .next t) :
    (256 ≤ s.pc.toNat + 1 ∧ t = s.faultedBy (.outOfBoundsAddress .memAddress (s.pc.toNat + 1))) ∨
      (s.pc.toNat + 1 < 256 ∧ 8 ≤ (s.mem.read (s.pc.toNat + 1)).toNat ∧
        t = s.faultedBy (.outOfBoundsAddress .regIndex (s.mem.read (s.pc.toNat + 1)).toNat)) ∨
      (s.pc.toNat + 1 < 256 ∧ (s.mem.read (s.pc.toNat + 1)).toNat < 8 ∧
        t = (s.output (s.reg (s.mem.read (s.pc.toNat + 1)).toNat)).advance .prn) := by
  unfold execPrn at h
  rcases withRegOperand_next h with ⟨h1, h2, h⟩ | h | h
  · cases h
    exact .inr (.inr ⟨h1, h2, rfl⟩)
  · exact .inl h
  · exact .inr (.inl h)

/-- HLT, when it answers a next state. -/
theorem execHlt_next (h : execHlt s = .next t) : t = s.halt.advance .hlt := by
  cases h
  rfl

/-- The ALU, when it answers a next state. -/
theorem aluApply_next {op : AluOp} {aA bA : Nat} {k : State → Result} (h : aluApply op aA bA s k = .next t) :
    (256 ≤ bA ∧ t = s.faultedBy (.outOfBoundsAddress .memAddress bA)) ∨
      (bA < 256 ∧ 8 ≤ (s.mem.read bA).toNat ∧ t = s.faultedBy (.outOfBoundsAddress .regIndex (s.mem.read bA).toNat)) ∨
      (bA < 256 ∧ (s.mem.read bA).toNat < 8 ∧ 256 ≤ aA ∧ t = s.faultedBy (.outOfBoundsAddress .memAddress aA)) ∨
      (bA < 256 ∧ (s.mem.read bA).toNat < 8 ∧ aA < 256 ∧ 8 ≤ (s.mem.read aA).toNat ∧
        t = s.faultedBy (.outOfBoundsAddress .regIndex (s.mem.read aA).toNat)) ∨
      (bA < 256 ∧ (s.mem.read bA).toNat < 8 ∧ aA < 256 ∧ (s.mem.read aA).toNat < 8 ∧
        k (s.setReg (s.mem.read aA).toNat
          (lowByte (op.compute (s.reg (s.mem.read aA).toNat).toNat (s.reg (s.mem.read bA).toNat).toNat))) = .next t) := by
  rcases withNamedReg_next h with ⟨h1, h2, h⟩ | h | h
  · rcases withNamedReg_next h with ⟨h3, h4, h⟩ | h | h
    · rw [withRegWrite_of_lt h4] at h
      exact .inr (.inr (.inr (.inr ⟨h1, h2, h3, h4, h⟩)))
    · exact .inr (.inr (.inl ⟨h1, h2, h⟩))
    · exact .inr (.inr (.inr (.inl ⟨h1, h2, h⟩)))
  · exact .inl h
  · exact .inr (.inl h)

/-- The state an ALU instruction `i` leaves when it does not fault. -/
abbrev State.aluDone (s : State) (op : AluOp) (i : Instr) : State :=
  (s.setReg (s.mem.read (s.pc.toNat + 1)).toNat
    (lowByte (op.compute (s.reg (s.mem.read (s.pc.toNat + 1)).toNat).toNat
      (s.reg (s.mem.read (s.pc.toNat + 2)).toNat).toNat))).advance i

/-- An ALU instruction, when it answers a next state: the operand address `pc + 1` is never the one that is out of bounds. -/
theorem aluApply_advance_next {op : AluOp} {i : Instr}
    (h : aluApply op (s.operandAddr 1) (s.operandAddr 2) s (fun s => .next (s.advance i)) = .next t) :
    (256 ≤ s.pc.toNat + 2 ∧ t = s.faultedBy (.outOfBoundsAddress .memAddress (s.pc.toNat + 2))) ∨
      (s.pc.toNat + 2 < 256 ∧ 8 ≤ (s.mem.read (s.pc.toNat + 2)).toNat ∧
        t = s.faultedBy (.outOfBoundsAddress .regIndex (s.mem.read (s.pc.toNat + 2)).toNat)) ∨
      (s.pc.toNat + 2 < 256 ∧ (s.mem.read (s.pc.toNat + 2)).toNat < 8 ∧ 8 ≤ (s.mem.read (s.pc.toNat + 1)).toNat ∧
        t = s.faultedBy (.outOfBoundsAddress .regIndex (s.mem.read (s.pc.toNat + 1)).toNat)) ∨
      (s.pc.toNat + 2 < 256 ∧ (s.mem.read (s.pc.toNat + 2)).toNat < 8 ∧ (s.mem.read (s.pc.toNat + 1)).toNat < 8 ∧
        t = s.aluDone op i) := by
  rcases aluApply_next h with h | h | ⟨h1, h2, h3, h⟩ | ⟨h1, h2, -, h⟩ | ⟨h1, h2, -, h4, h⟩
  · exact .inl h
  · exact .inr (.inl h)
  · simp only [operandAddr_eq] at h1 h3
    omega
  · exact .inr (.inr (.inl ⟨h1, h2, h⟩))
  · cases h
    exact .inr (.inr (.inr ⟨h1, h2, h4, rfl⟩))

/-- POP, when it answers a next state. -/
theorem execPop_next (h : execPop s = .next t) :
    (s.sp = 0xF4#8 ∧ t = s.faultedBy (.stackUnderflow 0xF4#8)) ∨
      (s.sp ≠ 0xF4#8 ∧ 256 ≤ s.pc.toNat + 1 ∧ t = s.faultedBy (.outOfBoundsAddress .memAddress (s.pc.toNat + 1))) ∨
      (s.sp ≠ 0xF4#8 ∧ s.pc.toNat + 1 < 256 ∧ 8 ≤ (s.mem.read (s.pc.toNat + 1)).toNat ∧
        t = s.faultedBy (.outOfBoundsAddress .regIndex (s.mem.read (s.pc.toNat + 1)).toNat)) ∨
      (s.sp ≠ 0xF4#8 ∧ s.pc.toNat + 1 < 256 ∧ (s.mem.read (s.pc.toNat + 1)).toNat < 8 ∧
        t = ((s.setReg (s.mem.read (s.pc.toNat + 1)).toNat (s.mem.read s.sp.toNat)).incrementSp).advance .pop) := by
  rcases withStackNotEmpty_next h with ⟨h0, h⟩ | h
  · rcases withMemRead_next h with ⟨h1, h⟩ | h
    · rw [withMemRead_of_lt s.sp.isLt] at h
      rcases withRegWrite_next h with ⟨h2, h⟩ | h
      · cases h
        exact .inr (.inr (.inr ⟨h0, h1, h2, rfl⟩))
      · exact .inr (.inr (.inl ⟨h0, h1, h⟩))
    · exact .inr (.inl ⟨h0, h⟩)
  · exact .inl h

/-- The state in which PUSH and CALL make their tests: `sp` decremented. -/
abbrev State.pushed (s : State) : State := { s with sp := lowByte (s.sp.toNat - 1) }

/-- PUSH, when it answers a next state. -/
theorem execPush_next (h : execPush s = .next t) :
    (s.sp.toNat = 0 ∧ t = s.faultedBy (.subtractUnderflow 0 1)) ∨
      (0 < s.sp.toNat ∧ s.sp.toNat - 1 ≤ s.pc.toNat + 1 ∧
        t = s.pushed.faultedBy (.stackOverflow (lowByte (s.sp.toNat - 1)) s.pc)) ∨
      (s.pc.toNat + 1 < s.sp.toNat - 1 ∧ 8 ≤ (s.mem.read (s.pc.toNat + 1)).toNat ∧
        t = s.pushed.faultedBy (.outOfBoundsAddress .regIndex (s.mem.read (s.pc.toNat + 1)).toNat)) ∨
      (s.pc.toNat + 1 < s.sp.toNat - 1 ∧ (s.mem.read (s.pc.toNat + 1)).toNat < 8 ∧
        t = (State.advance { s.pushed with
          mem := s.mem.write (s.sp.toNat - 1) (s.reg (s.mem.read (s.pc.toNat + 1)).toNat) } .push)) := by
  have hsp := s.sp.isLt
  rcases withSpDecremented_next h with ⟨h0, h⟩ | h
  · simp only [toNat_lowByte_pred h0, operandAddr_eq] at h
    split at h
    · exact .inr (.inl ⟨h0, ‹_›, by rwa [raise_next] at h⟩)
    · rcases withRegOperand_next h with ⟨h1, h2, h⟩ | ⟨h1, h⟩ | ⟨h1, h2, h⟩
      · dsimp only at h
        rw [withMemWrite_of_lt (by omega)] at h
        cases h
        exact .inr (.inr (.inr ⟨by omega, h2, rfl⟩))
      · dsimp only at h1
        omega
      · exact .inr (.inr (.inl ⟨by omega, h2, h⟩))
  · exact .inl h

/-- RET, when it answers a next state. -/
theorem execRet_next (h : execRet s = .next t) :
    (s.sp = 0xF4#8 ∧ t = s.faultedBy (.stackUnderflow 0xF4#8)) ∨
      (s.sp ≠ 0xF4#8 ∧ t = s.incrementSp.setPc (s.mem.read s.sp.toNat).toNat) := by
  rcases withStackNotEmpty_next h with ⟨h0, h⟩ | h
  · rw [withMemRead_of_lt s.sp.isLt] at h
    cases h
    exact .inr ⟨h0, rfl⟩
  · exact .inl h

/-- The state in which CALL reads its operand byte: `sp` decremented and the return address written. -/
abbrev State.called (s : State) : State :=
  { s.pushed with mem := s.mem.write (s.sp.toNat - 1) (lowByte (s.pc.toNat + 2)) }

/-- CALL, when it answers a next state. -/
theorem execCall_next (h : execCall s = .next t) :
    (s.sp.toNat = 0 ∧ t = s.faultedBy (.subtractUnderflow 0 1)) ∨
      (0 < s.sp.toNat ∧ s.sp.toNat - 1 = s.pc.toNat ∧
        t = s.pushed.faultedBy (.stackOverflow (lowByte (s.sp.toNat - 1)) s.pc)) ∨
      (0 < s.sp.toNat ∧ s.sp.toNat - 1 ≠ s.pc.toNat ∧ 256 ≤ s.pc.toNat + 2 ∧
        t = s.pushed.faultedBy (.outOfBoundsAddress .returnAddress (s.pc.toNat + 2))) ∨
      (0 < s.sp.toNat ∧ s.sp.toNat - 1 ≠ s.pc.toNat ∧ s.pc.toNat + 2 < 256 ∧
        8 ≤ (s.called.mem.read (s.pc.toNat + 1)).toNat ∧
        t = s.called.faultedBy (.outOfBoundsAddress .regIndex (s.called.mem.read (s.pc.toNat + 1)).toNat)) ∨
      (0 < s.sp.toNat ∧ s.sp.toNat - 1 ≠ s.pc.toNat ∧ s.pc.toNat + 2 < 256 ∧
        (s.called.mem.read (s.pc.toNat + 1)).toNat < 8 ∧
        t = s.called.setPc (s.reg (s.called.mem.read (s.pc.toNat + 1)).toNat).toNat) := by
  have hsp := s.sp.isLt
  rcases withSpDecremented_next h with ⟨h0, h⟩ | h
  · simp only [toNat_lowByte_pred h0, returnAddr_eq, Config.memSize] at h
    split at h
    · exact .inr (.inl ⟨h0, ‹_›, by rwa [raise_next] at h⟩)
    · split at h
      · exact .inr (.inr (.inl ⟨h0, ‹_›, ‹_›, by rwa [raise_next] at h⟩))
      · rw [withMemWrite_of_lt (by omega)] at h
        rcases withRegOperand_next h with ⟨h1, h2, h⟩ | ⟨h1, h⟩ | ⟨h1, h2, h⟩
        · cases h
          exact .inr (.inr (.inr (.inr ⟨h0, ‹_›, by omega, h2, rfl⟩)))
        · dsimp only at h1
          omega
        · exact .inr (.inr (.inr (.inl ⟨h0, ‹_›, by omega, h2, h⟩)))
  · exact .inl h

end Sys2Proof.Machine
end

