-- ==== Sys2Proof/Laws/Safety.lean ====
section
/-! SUPPORT. The induction over a run, packaged once, and that no instruction is refused. -/

namespace Sys2Proof.Machine

/-- What holds of a state and is kept by every step holds of every state it reaches. -/
theorem Reaches.keeps {P : State → Prop} (hstep : ∀ s t, P s → step s = .next t → P t) {s t : State} (h : Reaches s t) (hs : P s) :
    P t := by
  induction h with
  | refl => exact hs
  | tail _ h ih => exact hstep _ _ ih h

/-- An outcome that is a next state. -/
abbrev Answers (r : Result) : Prop := ∃ t, r = .next t

theorem answers_next (t : State) : Answers (.next t) := ⟨t, rfl⟩

theorem answers_raise (s : State) (c : Cause) : Answers (raise s c) := ⟨s.faultedBy c, rfl⟩

theorem answers_withMemRead {s : State} {a : Nat} {k : Byte → Result} (h : ∀ b, Answers (k b)) : Answers (withMemRead s a k) := by
  unfold withMemRead
  split
  · exact h _
  · exact answers_raise _ _

theorem answers_withMemWrite {s : State} {a : Nat} {v : Byte} {k : State → Result} (h : ∀ t, Answers (k t)) :
    Answers (withMemWrite s a v k) := by
  unfold withMemWrite
  split
  · exact h _
  · exact answers_raise _ _

theorem answers_withRegWrite {s : State} {i v : Byte} {k : State → Result} (h : ∀ t, Answers (k t)) :
    Answers (withRegWrite s i v k) := by
  unfold withRegWrite
  split
  · exact h _
  · exact answers_raise _ _

theorem answers_withNamedReg {s : State} {a : Nat} {k : Byte → Byte → Result} (h : ∀ i v, Answers (k i v)) :
    Answers (withNamedReg s a k) := by
  refine answers_withMemRead fun b => ?_
  unfold withRegRead
  split
  · exact h _ _
  · exact answers_raise _ _

theorem answers_withSpDecremented {s : State} {k : State → Result} (h : ∀ t, Answers (k t)) : Answers (withSpDecremented s k) := by
  unfold withSpDecremented
  split
  · exact h _
  · exact answers_raise _ _

theorem answers_withStackNotEmpty {s : State} {r : Result} (h : Answers r) : Answers (withStackNotEmpty s r) := by
  unfold withStackNotEmpty
  split
  · exact answers_raise _ _
  · exact h

/-- Every instruction answers a next state in every state: none is refused, and an architected fault is a next state. -/
theorem exec_answers (i : Instr) (s : State) : Answers (exec i s) := by
  cases i with
  | ldi =>
    unfold exec execLdi withOperand
    exact answers_withMemRead fun _ => answers_withMemRead fun _ => answers_withRegWrite fun _ => answers_next _
  | prn =>
    unfold exec execPrn withRegOperand
    exact answers_withNamedReg fun _ _ => answers_next _
  | hlt => exact answers_next _
  | add =>
    unfold exec execAdd aluApply
    exact answers_withNamedReg fun _ _ => answers_withNamedReg fun _ _ => answers_withRegWrite fun _ => answers_next _
  | mul =>
    unfold exec execMul aluApply
    exact answers_withNamedReg fun _ _ => answers_withNamedReg fun _ _ => answers_withRegWrite fun _ => answers_next _
  | pop =>
    unfold exec execPop withOperand
    exact answers_withStackNotEmpty
      (answers_withMemRead fun _ => answers_withMemRead fun _ => answers_withRegWrite fun _ => answers_next _)
  | push =>
    unfold exec execPush withRegOperand
    refine answers_withSpDecremented fun t => ?_
    split
    · exact answers_raise _ _
    · exact answers_withNamedReg fun _ _ => answers_withMemWrite fun _ => answers_next _
  | ret => exact answers_withStackNotEmpty (answers_withMemRead fun _ => answers_next _)
  | call =>
    unfold exec execCall withRegOperand
    refine answers_withSpDecremented fun t => ?_
    split
    · exact answers_raise _ _
    · split
      · exact answers_raise _ _
      · exact answers_withMemWrite fun _ => answers_withNamedReg fun _ _ => answers_next _

end Sys2Proof.Machine
end

