-- ==== Sys2Proof/Tests/Slice0.lean ====
section
/-! SUPPORT. Tests of the model, and for each statement with hypotheses a concrete state and operands that meet them all. Every expected value
comes from spec/: the encodings of 30_encoding.md R75 and R80 and the vectors of 95_test_vectors.md, named by their id. -/

namespace Sys2Proof.Tests

open Sys2Proof Sys2Proof.Machine

/-- The reset state with the given bytes at `pc`. -/
def startAt (pc : Nat) (bytes : List Byte) : State :=
  { State.reset with pc := BitVec.ofNat 9 pc, mem := State.reset.mem.place pc bytes }

/-- The same, with some registers, `sp` and one more byte of memory set. -/
def startWith (pc : Nat) (bytes : List Byte) (regs : List (Nat × Byte)) (sp : Byte) (cell : Nat × Byte) : State :=
  let s := startAt pc bytes
  regs.foldl (fun s r => s.setReg r.1 r.2) { s with sp := sp, mem := s.mem.write cell.1 cell.2 }

/-- What one step leaves, seen through `f`. -/
def look {α : Type} (s : State) (f : State → α) : Option α :=
  match step s with
  | .next t => some (f t)
  | _ => none

/-- The state one step leaves, or the state itself where there is no step. -/
def nextOf (s : State) : State :=
  match step s with
  | .next t => t
  | _ => s

/-- The state after `k` steps. -/
def after (s : State) : Nat → State
  | 0 => s
  | k + 1 => nextOf (after s k)

/-- The cause a step raises and the `fault_pc` it records. -/
def faultOf (s : State) : Option (Option (Cause × Nat)) := look s fun t => t.fault.map fun r => (r.cause, r.faultPc.toNat)

/-! ### Well-formedness: the one check, from both sides -/

theorem test_wellFormed_add : (Instruction.add 0 255).wellFormed = true := by decide
theorem test_illFormed_missing_operand : Instruction.wellFormed ⟨.ldi, [0]⟩ = false := by decide
theorem test_illFormed_extra_operand : Instruction.wellFormed ⟨.hlt, [0]⟩ = false := by decide

/-! ### Decoding: one word of each instruction, written from 30_encoding.md R75 and R80 -/

theorem test_decode_ldi : decode [0b10000010, 0b00000011, 0b11111111, 0x01] = .ok (.ldi 3 255, [0x01]) := by rfl
theorem test_decode_prn : decode [0b01000111, 0b00000111] = .ok (.prn 7, []) := by rfl
theorem test_decode_hlt : decode [0b00000001] = .ok (.hlt, []) := by rfl
theorem test_decode_add : decode [0b10100000, 0b00000001, 0b00000010] = .ok (.add 1 2, []) := by rfl
theorem test_decode_mul : decode [0b10100010, 0b00000001, 0b00000010] = .ok (.mul 1 2, []) := by rfl
theorem test_decode_pop : decode [0b01000110, 0b00000110] = .ok (.pop 6, []) := by rfl
theorem test_decode_push : decode [0b01000101, 0b00000100] = .ok (.push 4, []) := by rfl
theorem test_decode_ret : decode [0b00010001] = .ok (.ret, []) := by rfl
theorem test_decode_call : decode [0b01010000, 0b00000101] = .ok (.call 5, []) := by rfl
/-- DEC-10 to DEC-15: undefined opcodes. -/
theorem test_decode_undefined : [0x00, 0x02, 0x54, 0xA7, 0xC0, 0xFF].map decodeOpcode = List.replicate 6 none := by decide
theorem test_decode_truncated : decode [0x82, 0x00] = .error (.truncated .ldi) := by rfl
theorem test_decode_noBytes : decode [] = .error .noBytes := by rfl
/-- DEC-1 to DEC-15: the decoded length. -/
theorem test_decodeLength : [0x82, 0x47, 0x01, 0xA0, 0xA2, 0x46, 0x45, 0x11, 0x50, 0x00, 0x54, 0xA7, 0xC0, 0xFF].map decodeLength =
    [3, 2, 1, 3, 3, 2, 2, 1, 2, 1, 2, 3, 4, 4] := by decide
/-- The first byte is the low byte of a table word; operand bits the table does not give are 0. -/
theorem test_decodeTableWord : decodeTableWord 24 0xFF0382 = some .ldi ∧ decodeTableWord 8 0x50 = some .call ∧
    decodeTableWord 8 0x54 = none := by decide
theorem test_spell : (Instruction.ldi 0 8).spell = "LDI R0, 8" ∧ Instruction.ret.spell = "RET" := by decide

/-! ### The instructions -/

/-- L-2. -/
theorem test_ldi_last_register : look (startAt 0 [0x82, 0x07, 0xFF]) (fun t => (t.reg 7, t.pc.toNat)) = some (255, 3) := by decide
/-- L-7: the memory check comes before the index check. -/
theorem test_ldi_memory_before_index : faultOf (startAt 254 [0x82, 0x08]) = some (some (.outOfBoundsAddress .memAddress 256, 254)) := by
  decide
/-- PR-1. -/
theorem test_prn_emits : look (startWith 0 [0x47, 0x07] [(7, 200)] 0xF4 (255, 0)) (fun t => (t.out, t.pc.toNat)) = some ([200], 2) := by
  decide
/-- PR-2. -/
theorem test_prn_bad_index : look (startAt 0 [0x47, 0x08]) (fun t => (t.out, t.pc.toNat, t.status)) = some ([], 0, .faulted) := by decide
/-- H-2. -/
theorem test_hlt_at_255 : look (startAt 255 [0x01]) (fun t => (t.status, t.pc.toNat)) = some (.halted, 256) := by decide
/-- A-2. -/
theorem test_add_wraps : look (startWith 0 [0xA0, 0x00, 0x01] [(0, 200), (1, 100)] 0xF4 (255, 0)) (fun t => (t.reg 0, t.reg 1)) =
    some (44, 100) := by decide
/-- A-8: `rb` is checked before `ra`. -/
theorem test_add_rb_first : faultOf (startAt 0 [0xA0, 0x09, 0x08]) = some (some (.outOfBoundsAddress .regIndex 8, 0)) := by decide
/-- M-3. -/
theorem test_mul_low_byte : look (startWith 0 [0xA2, 0x00, 0x01] [(0, 255), (1, 255)] 0xF4 (255, 0)) (fun t => (t.reg 0, t.reg 1)) =
    some (1, 255) := by decide
/-- A-10 with MUL (M-7): `pc + 2` is read first. -/
theorem test_mul_at_255 : faultOf (startAt 255 [0xA2]) = some (some (.outOfBoundsAddress .memAddress 257, 255)) := by decide
/-- S-2. -/
theorem test_pop_top : look (startWith 8 [0x46, 0x01] [] 0xF3 (0xF3, 42)) (fun t => (t.reg 1, t.sp, t.pc.toNat, t.mem.read 0xF3)) =
    some (42, 244, 10, 42) := by decide
/-- S-4. -/
theorem test_pop_at_255 : look (startWith 255 [0x46] [] 0xF3 (0, 0)) (fun t => (t.status, t.sp)) = some (.faulted, 243) := by decide
/-- U-5: the byte at `pc + 2`, the next opcode, is overwritten. -/
theorem test_push_next_opcode : look (startWith 0 [0x45, 0x00] [(0, 1)] 3 (255, 0)) (fun t => (t.sp, t.mem.read 2, t.pc.toNat)) =
    some (2, 1, 2) := by decide
/-- U-8. -/
theorem test_push_at_255 : look (startAt 255 [0x45]) (fun t => (t.fault, t.sp)) =
    some (some ⟨.stackOverflow 243 255, 255⟩, 243) := by decide
/-- C-3. -/
theorem test_ret_to_255 : look (startWith 30 [0x11] [] 0xF3 (0xF3, 255)) (fun t => (t.pc.toNat, t.sp)) = some (255, 244) := by decide
/-- C-1. -/
theorem test_ret_empty : faultOf (startAt 30 [0x11]) = some (some (.stackUnderflow 244, 30)) := by decide
/-- C-7: only equality is tested. -/
theorem test_call_below_code : look (startWith 100 [0x50, 0x01] [(1, 40)] 100 (255, 0)) (fun t => (t.sp, t.mem.read 99, t.pc.toNat)) =
    some (99, 102, 40) := by decide
/-- C-11: CALL reads the operand byte it has just written. -/
theorem test_call_own_operand : look (startWith 0 [0x50, 0x01] [(2, 77)] 2 (255, 0)) (fun t => (t.pc.toNat, t.sp)) = some (77, 1) := by
  decide
/-- DEC-16 and DEC-17. -/
theorem test_fetch_faults : faultOf (startAt 256 []) = some (some (.outOfBoundsAddress .memAddress 256, 256)) ∧
    faultOf (startAt 7 [0x54]) = some (some (.unknownInstruction 0x54 7, 7)) := by decide
/-- DEC-18. -/
theorem test_no_step_when_halted : step State.reset.halt = .fault .noStepWhenHalted := by rfl
/-- PRIM-1 to PRIM-8. -/
theorem test_primitives : addLoop 9 255 3 = some 258 ∧ subtractLoop 8 244 1 = some 243 ∧ subtractLoop 10 0 1 = none ∧
    multiplyLoop 8 0 255 255 = some 65025 ∧ divide 200 7 = .value 28 ∧ divide 5 0 = Config.divByZero 5 :=
  ⟨by decide, by decide, by decide, by decide, by decide +kernel, by rfl⟩
/-- An instruction stored by `withFetchWord` is the one the next step after reset runs. -/
theorem test_withFetchWord : look (State.reset.withFetchWord 24 0x080082) (fun t => (t.reg 0, t.pc.toNat, t.ir)) = some (8, 3, 0x82) := by
  decide
/-- An image is loaded, and one of 257 bytes is refused. -/
theorem test_load : (State.load [0x82, 0x00, 0x08]).map (fun s => (s.mem.read 2, s.mem.read 3)) = some (8, 0) ∧
    State.load (List.replicate 257 0) = none := ⟨by decide +kernel, by decide +kernel⟩

/-! ### Witnesses: the hypotheses of each statement can be met, clause by clause -/

/-- The invariant holds of a state with a program at 0 and one byte on the stack. -/
theorem witness_inv : Inv (startWith 0 [0x45, 0x00, 0x46, 0x01] [(0, 42)] 0xF4 (0xF3, 7)) :=
  ⟨by decide, by decide, by decide, by decide, by simp [startWith, startAt]⟩

theorem witness_LoadedMemoryIsImage : ∃ s, State.load [0x82, 0x00, 0x08] = some s := ⟨_, rfl⟩
theorem witness_LoadChangesMemoryOnly : (List.replicate 256 (1 : Byte)).length ≤ 256 ∧ 256 < (List.replicate 257 (1 : Byte)).length :=
  ⟨List.length_replicate.le, List.length_replicate.ge⟩
theorem witness_LengthIsHighBitsPlusOne : decodeOpcode 0x82 = some .ldi ∧ decodeOpcode 0x01 = some .hlt := by decide
theorem witness_OpcodeMapIsExactlyNineRows :
    (0x51#8 : Byte) ∉ [0x82#8, 0x47#8, 0x01#8, 0xA0#8, 0xA2#8, 0x46#8, 0x45#8, 0x11#8, 0x50#8] := by decide
theorem witness_DecodeOfEncode : (Instruction.ldi 255 255).wellFormed = true ∧ Instruction.hlt.wellFormed = true := by decide
theorem witness_DecodedBytesAreEncoding : decode [0x47, 0x08, 0x01] = .ok (.prn 8, [0x01]) := by rfl
theorem witness_StepRunsTheDecodedInstruction : (startAt 253 [0x82, 0x02, 0x09]).status = .running ∧
    decode ((startAt 253 [0x82, 0x02, 0x09]).mem.bytesFrom (startAt 253 [0x82, 0x02, 0x09]).pc.toNat 3) = .ok (.ldi 2 9, []) :=
  ⟨rfl, rfl⟩
theorem witness_DispatchByOpcodeByte_defined : (startAt 255 [0x01]).status = .running ∧ (startAt 255 [0x01]).pc.toNat < 256 ∧
    (startAt 255 [0x01]).mem.read (startAt 255 [0x01]).pc.toNat = 0x01#8 := by decide
theorem witness_DispatchByOpcodeByte_undefined : (startAt 255 [0xFF]).status = .running ∧ (startAt 255 [0xFF]).pc.toNat < 256 ∧
    (startAt 255 [0xFF]).mem.read (startAt 255 [0xFF]).pc.toNat ∉
      [0x82#8, 0x47#8, 0x01#8, 0xA0#8, 0xA2#8, 0x46#8, 0x45#8, 0x11#8, 0x50#8] := by decide
theorem witness_FetchAboveMemoryFaults : (startAt 256 []).status = .running ∧ 256 ≤ (startAt 256 []).pc.toNat := by decide
theorem witness_StepExactlyWhileRunning : State.reset.halt.status = .halted ∧
    (State.reset.faultedBy (.stackUnderflow 0xF4)).status = .faulted := by decide
/-- A step that halts: a hypothesis of the statements about every step. -/
theorem witness_step_halts : ∃ t, step (startAt 0 [0x01]) = .next t ∧ t.status = .halted := ⟨_, rfl, rfl⟩
/-- A step that faults, at the edge of memory. -/
theorem witness_step_faults : ∃ t, step (startAt 255 [0x82]) = .next t ∧ t.status = .faulted := ⟨_, rfl, rfl⟩
/-- A step that goes on, up to the edge of memory. -/
theorem witness_step_goes_on : ∃ t, step (startAt 253 [0x82, 0x02, 0x09]) = .next t ∧ t.status = .running := ⟨_, rfl, rfl⟩
/-- For `StatusTransitions`: a step to FAULTED and one that is not. -/
theorem witness_StatusTransitions : (∃ t, step (startAt 0 [0x54]) = .next t ∧ t.status = .faulted) ∧
    ∃ t, step (startAt 0 [0x01]) = .next t ∧ t.status ≠ .faulted := ⟨⟨_, rfl, rfl⟩, _, rfl, by decide⟩
/-- For `PcChangesInThreeWays`: CALL and RET among the steps that go on. -/
theorem witness_PcChangesInThreeWays : (∃ t, step (startAt 6 [0x50, 0x01]) = .next t ∧ t.status ≠ .faulted) ∧
    ∃ t, step (startWith 30 [0x11] [] 0xF3 (0xF3, 5)) = .next t ∧ t.status ≠ .faulted := ⟨⟨_, rfl, by decide⟩, _, rfl, by decide⟩
theorem witness_SpChangesOnlyInStackInstructions : ∃ t,
    Inv (startWith 0 [0x45, 0x00, 0x46, 0x01] [(0, 42)] 0xF4 (0xF3, 7)) ∧
    step (startWith 0 [0x45, 0x00, 0x46, 0x01] [(0, 42)] 0xF4 (0xF3, 7)) = .next t := ⟨_, witness_inv, rfl⟩
theorem witness_OnlyDestinationRegisterChanges : ∃ t, step (startAt 0 [0x82, 0x07, 0x08]) = .next t ∧
    t.reg 7 ≠ (startAt 0 [0x82, 0x07, 0x08]).reg 7 := ⟨_, rfl, by decide⟩
theorem witness_OnlyPushedCellChanges : ∃ t, step (startWith 6 [0x45, 0x00] [(0, 42)] 0xF4 (255, 0)) = .next t ∧
    t.mem.read 243 ≠ (startWith 6 [0x45, 0x00] [(0, 42)] 0xF4 (255, 0)).mem.read 243 := ⟨_, rfl, by decide⟩
theorem witness_StackNeverWritesSentinelOrAbove : ∃ t,
    Inv (startWith 0 [0x45, 0x00, 0x46, 0x01] [(0, 42)] 0xF4 (0xF3, 7)) ∧
    step (startWith 0 [0x45, 0x00, 0x46, 0x01] [(0, 42)] 0xF4 (0xF3, 7)) = .next t ∧ 0xF4 ≤ 0xF4 := ⟨_, witness_inv, rfl, by decide⟩
theorem witness_OutGrowsOnlyByPrn : ∃ t, step (startAt 254 [0x47, 0x07]) = .next t ∧
    ((startAt 254 [0x47, 0x07]).pc.toNat < 256 ∧ (startAt 254 [0x47, 0x07]).mem.read (startAt 254 [0x47, 0x07]).pc.toNat = 0x47#8 ∧
      t.status ≠ .faulted) := ⟨_, rfl, by decide⟩
theorem witness_RaiseRecordsAndStops : ∃ t, raise State.reset (.stackUnderflow 0xF4) = .next t := ⟨_, rfl⟩
/-- For `FaultKeepsOnlyTheListedEffects`: PUSH and CALL faults of each kind that leaves an effect. -/
theorem witness_FaultKeepsOnlyTheListedEffects :
    (∃ t, step (startAt 242 [0x45, 0x00]) = .next t ∧ t.status = .faulted) ∧
    (∃ t, step (startAt 6 [0x45, 0x08]) = .next t ∧ t.status = .faulted) ∧
    (∃ t, step (startAt 254 [0x50, 0x01]) = .next t ∧ t.status = .faulted) ∧
    ∃ t, step (startAt 6 [0x50, 0x08]) = .next t ∧ t.status = .faulted := ⟨⟨_, rfl, rfl⟩, ⟨_, rfl, rfl⟩, ⟨_, rfl, rfl⟩, _, rfl, rfl⟩
theorem witness_EmptyStackTestIsTheSentinelValue : ∃ t, Instr.ret ∈ [Instr.pop, Instr.ret] ∧ (startAt 30 [0x11]).fault = none ∧
    exec .ret (startAt 30 [0x11]) = .next t := ⟨_, by decide, rfl, rfl⟩
/-- For `StackOverflowTestsOfPushAndCall`: at the boundary, `sp - 1 = pc + 1` for PUSH and `sp - 1 = pc` for CALL. -/
theorem witness_StackOverflowTestsOfPushAndCall :
    (∃ t, (startAt 242 [0x45, 0x00]).fault = none ∧ 0 < (startAt 242 [0x45, 0x00]).sp.toNat ∧
      exec .push (startAt 242 [0x45, 0x00]) = .next t ∧ t.fault = some ⟨.stackOverflow 243 242, 242⟩) ∧
    ∃ t, (startAt 243 [0x50, 0x00]).fault = none ∧ 0 < (startAt 243 [0x50, 0x00]).sp.toNat ∧
      exec .call (startAt 243 [0x50, 0x00]) = .next t ∧ t.fault = some ⟨.stackOverflow 243 243, 243⟩ :=
  ⟨⟨_, rfl, by decide, rfl, rfl⟩, _, rfl, by decide, rfl, rfl⟩
theorem witness_RegisterIndexIsChecked : 8 ≤ (8#8).toNat ∧ (7#8).toNat < 8 := by decide
theorem witness_MemReadIsBoundsChecked : 256 ≤ 256 ∧ 255 < 256 := by decide
theorem witness_MemWriteIsBoundsChecked : State.reset.mem.wf ∧ 256 ≤ 256 ∧ 255 < 256 := by decide

theorem witness_LdiLoadsItsImmediate : let s := startAt 253 [0x82, 0x07, 0xFF]
    s.pc.toNat + 2 < 256 ∧ (s.mem.read (s.pc.toNat + 1)).toNat < 8 := by decide
theorem witness_LdiFaultsInOrder_first : 256 ≤ (startAt 255 [0x82]).pc.toNat + 1 := by decide
theorem witness_LdiFaultsInOrder_second : (startAt 254 [0x82, 0x08]).pc.toNat + 1 < 256 ∧ 256 ≤ (startAt 254 [0x82, 0x08]).pc.toNat + 2 := by
  decide
theorem witness_LdiFaultsInOrder_third : let s := startAt 253 [0x82, 0x08, 0x01]
    s.pc.toNat + 2 < 256 ∧ 8 ≤ (s.mem.read (s.pc.toNat + 1)).toNat := by decide
theorem witness_PrnEmitsTheRegister : let s := startAt 254 [0x47, 0x07]
    s.pc.toNat + 1 < 256 ∧ (s.mem.read (s.pc.toNat + 1)).toNat < 8 := by decide
theorem witness_PrnFaultsInOrder_first : 256 ≤ (startAt 255 [0x47]).pc.toNat + 1 := by decide
theorem witness_PrnFaultsInOrder_second : let s := startAt 254 [0x47, 0x08]
    s.pc.toNat + 1 < 256 ∧ 8 ≤ (s.mem.read (s.pc.toNat + 1)).toNat := by decide
theorem witness_HltHalts : (startAt 255 [0x01]).pc.toNat < 256 := by decide
theorem witness_AddResultAndFaults_result : let s := startAt 253 [0xA0, 0x07, 0x07]
    s.pc.toNat + 2 < 256 ∧ (s.mem.read (s.pc.toNat + 2)).toNat < 8 ∧ (s.mem.read (s.pc.toNat + 1)).toNat < 8 := by decide
theorem witness_AddResultAndFaults_memory : 256 ≤ (startAt 254 [0xA0, 0x00]).pc.toNat + 2 := by decide
theorem witness_AddResultAndFaults_rb : let s := startAt 253 [0xA0, 0x09, 0x08]
    s.pc.toNat + 2 < 256 ∧ 8 ≤ (s.mem.read (s.pc.toNat + 2)).toNat := by decide
theorem witness_AddResultAndFaults_ra : let s := startAt 253 [0xA0, 0x08, 0x07]
    s.pc.toNat + 2 < 256 ∧ (s.mem.read (s.pc.toNat + 2)).toNat < 8 ∧ 8 ≤ (s.mem.read (s.pc.toNat + 1)).toNat := by decide
theorem witness_MulResultAndFaults_result : let s := startAt 253 [0xA2, 0x07, 0x07]
    s.pc.toNat + 2 < 256 ∧ (s.mem.read (s.pc.toNat + 2)).toNat < 8 ∧ (s.mem.read (s.pc.toNat + 1)).toNat < 8 := by decide
theorem witness_MulResultAndFaults_memory : 256 ≤ (startAt 254 [0xA2, 0x00]).pc.toNat + 2 := by decide
theorem witness_MulResultAndFaults_rb : let s := startAt 253 [0xA2, 0x09, 0x08]
    s.pc.toNat + 2 < 256 ∧ 8 ≤ (s.mem.read (s.pc.toNat + 2)).toNat := by decide
theorem witness_MulResultAndFaults_ra : let s := startAt 253 [0xA2, 0x08, 0x07]
    s.pc.toNat + 2 < 256 ∧ (s.mem.read (s.pc.toNat + 2)).toNat < 8 ∧ 8 ≤ (s.mem.read (s.pc.toNat + 1)).toNat := by decide
theorem witness_PopTakesTheTopByte : let s := startWith 254 [0x46, 0x07] [] 0xF3 (0xF3, 42)
    s.sp.toNat < 0xF4 ∧ s.pc.toNat + 1 < 256 ∧ (s.mem.read (s.pc.toNat + 1)).toNat < 8 := by decide
theorem witness_PopFaultsInOrder_first : (startAt 0 [0x46, 0x01]).sp = 0xF4#8 := by decide
theorem witness_PopFaultsInOrder_second : let s := startWith 255 [0x46] [] 0xF3 (0xF3, 42)
    s.sp ≠ 0xF4#8 ∧ 256 ≤ s.pc.toNat + 1 := by decide
theorem witness_PopFaultsInOrder_third : let s := startWith 254 [0x46, 0x08] [] 0xF3 (0xF3, 42)
    s.sp ≠ 0xF4#8 ∧ s.pc.toNat + 1 < 256 ∧ 8 ≤ (s.mem.read (s.pc.toNat + 1)).toNat := by decide
theorem witness_PushStoresTheRegister : let s := startAt 241 [0x45, 0x00]
    s.mem.wf ∧ s.pc.toNat + 2 ≤ s.sp.toNat - 1 ∧ (s.mem.read (s.pc.toNat + 1)).toNat < 8 := by decide
theorem witness_PushFaultsInOrder_first : (startWith 6 [0x45, 0x00] [] 0 (255, 0)).sp = 0#8 := by decide
theorem witness_PushFaultsInOrder_second : let s := startAt 242 [0x45, 0x00]
    s.sp ≠ 0#8 ∧ s.sp.toNat - 1 ≤ s.pc.toNat + 1 := by decide
theorem witness_PushFaultsInOrder_third : let s := startAt 241 [0x45, 0x08]
    s.pc.toNat + 2 ≤ s.sp.toNat - 1 ∧ 8 ≤ (s.mem.read (s.pc.toNat + 1)).toNat := by decide
theorem witness_RetReturnsOrUnderflows : (startWith 30 [0x11] [] 0xF3 (0xF3, 5)).sp.toNat < 0xF4 ∧ (startAt 30 [0x11]).sp = 0xF4#8 := by
  decide
/-- Both cases of the index: the operand byte as it was, and the return address written over it (C-11). -/
theorem witness_CallPushesAndJumps :
    (let s := startAt 253 [0x50, 0x07]
     s.mem.wf ∧ s.sp ≠ 0#8 ∧ s.sp.toNat - 1 ≠ s.pc.toNat ∧ s.pc.toNat + 2 < 256 ∧ s.callIndex < 8) ∧
    (let s := startWith 5 [0x50, 0x01] [] 7 (255, 0)
     s.mem.wf ∧ s.sp ≠ 0#8 ∧ s.sp.toNat - 1 ≠ s.pc.toNat ∧ s.pc.toNat + 2 < 256 ∧ s.callIndex < 8) := by decide
theorem witness_CallFaultsInOrder_first : let s := startWith 6 [0x50, 0x01] [] 0 (255, 0)
    s.mem.wf ∧ s.sp = 0#8 := by decide
theorem witness_CallFaultsInOrder_second : let s := startWith 100 [0x50, 0x01] [] 101 (255, 0)
    s.mem.wf ∧ s.sp ≠ 0#8 ∧ s.sp.toNat - 1 = s.pc.toNat := by decide
theorem witness_CallFaultsInOrder_third : let s := startAt 254 [0x50, 0x01]
    s.mem.wf ∧ s.sp ≠ 0#8 ∧ s.sp.toNat - 1 ≠ s.pc.toNat ∧ 256 ≤ s.pc.toNat + 2 := by decide
theorem witness_CallFaultsInOrder_fourth : let s := startAt 253 [0x50, 0x08]
    s.mem.wf ∧ s.sp ≠ 0#8 ∧ s.sp.toNat - 1 ≠ s.pc.toNat ∧ s.pc.toNat + 2 < 256 ∧ 8 ≤ s.callIndex := by decide

theorem witness_PushThenPopMovesTheValue : let s := startWith 0 [0x45, 0x00, 0x46, 0x01] [(0, 42)] 0xF4 (0xF3, 7)
    Inv s ∧ s.status = .running ∧ s.mem.read s.pc.toNat = 0x45#8 ∧ (s.mem.read (s.pc.toNat + 1)).toNat < 8 ∧
    s.mem.read (s.pc.toNat + 2) = 0x46#8 ∧ (s.mem.read (s.pc.toNat + 3)).toNat < 8 ∧ s.pc.toNat + 4 ≤ s.sp.toNat - 1 :=
  ⟨witness_inv, by decide⟩
/-- A CALL at 6 to 20, where a RET stands. -/
def callThenRet : State := startWith 6 [0x50, 0x01] [(1, 20)] 0xF4 (20, 0x11)
theorem witness_ReturnGoesToAfterTheCall : Inv callThenRet ∧ callThenRet.mem.read callThenRet.pc.toNat = 0x50#8 ∧
    step callThenRet = .next (nextOf callThenRet) ∧ (nextOf callThenRet).status = .running ∧ (nextOf callThenRet).pc.toNat < 256 ∧
    (nextOf callThenRet).mem.read (nextOf callThenRet).pc.toNat = 0x11#8 :=
  ⟨⟨by decide, by decide, by decide, by decide, by simp [callThenRet, startWith, startAt, State.setReg]⟩, by decide, rfl, by decide,
    by decide, by decide⟩
theorem witness_PushOntoTheNextOpcode : let s := startWith 0 [0x45, 0x00] [(0, 1)] 3 (255, 0)
    s.mem.wf ∧ s.status = .running ∧ s.mem.read s.pc.toNat = 0x45#8 ∧ (s.mem.read (s.pc.toNat + 1)).toNat < 8 ∧
    s.sp.toNat = s.pc.toNat + 3 ∧ decodeOpcode (s.reg (s.mem.read (s.pc.toNat + 1)).toNat) = some .hlt := by decide
theorem witness_CallOverItsOwnOperand :
    (let s := startWith 5 [0x50, 0x01] [] 7 (255, 0)
     s.mem.wf ∧ s.status = .running ∧ s.pc.toNat + 2 < 256 ∧ s.mem.read s.pc.toNat = 0x50#8 ∧ s.sp.toNat = s.pc.toNat + 2 ∧
       s.pc.toNat ≤ 5) ∧
    (let s := startWith 6 [0x50, 0x01] [] 8 (255, 0)
     s.mem.wf ∧ s.status = .running ∧ s.pc.toNat + 2 < 256 ∧ s.mem.read s.pc.toNat = 0x50#8 ∧ s.sp.toNat = s.pc.toNat + 2 ∧
       6 ≤ s.pc.toNat) := by decide
/-- Two turns of a CALL to itself (C-13). -/
theorem witness_CallChainIsBounded : let f := after (startWith 6 [0x50, 0x00] [(0, 6)] 0xF4 (255, 0))
    ∀ k < 2, (f k).mem.read (f k).pc.toNat = 0x50#8 ∧ step (f k) = .next (f (k + 1)) ∧ (f (k + 1)).status = .running := by
  intro f k hk
  match k, hk with
  | 0, _ => exact ⟨by decide, rfl, by decide⟩
  | 1, _ => exact ⟨by decide, rfl, by decide⟩
/-- A POP and a RET of two bytes. -/
theorem witness_PopChainIsBounded : let f := after (startWith 0 [0x46, 0x01, 0x11] [] 0xF2 (0xF3, 5))
    Inv (f 0) ∧
    ∀ k < 2, (f k).mem.read (f k).pc.toNat ∈ [0x46#8, 0x11#8] ∧ step (f k) = .next (f (k + 1)) ∧ (f (k + 1)).status = .running := by
  refine ⟨⟨by decide, by decide, by decide, by decide, by simp [after, startWith, startAt]⟩, fun k hk => ?_⟩
  match k, hk with
  | 0, _ => exact ⟨by decide, rfl, by decide⟩
  | 1, _ => exact ⟨by decide, rfl, by decide⟩
theorem witness_IrIsUnobservable : ∃ t, step (startAt 256 []) = .next t := ⟨_, rfl⟩
theorem witness_OutputIsNeverReadBack : ∃ t, step (startAt 0 [0x47, 0x00]) = .next t := ⟨_, rfl⟩
theorem witness_RunEndsInExactlyOneWay : State.reset.status = .running := rfl
theorem witness_StepKeepsInv : ∃ t, Inv (startWith 0 [0x45, 0x00, 0x46, 0x01] [(0, 42)] 0xF4 (0xF3, 7)) ∧
    step (startWith 0 [0x45, 0x00, 0x46, 0x01] [(0, 42)] 0xF4 (0xF3, 7)) = .next t := ⟨_, witness_inv, rfl⟩
theorem witness_InvOfEveryReachableState : ∃ s t, State.load [0x01] = some s ∧ Reaches s t ∧ t.status = .halted :=
  ⟨_, _, rfl, .tail (.refl _) rfl, rfl⟩
theorem witness_ExitStatusFollowsStatus : ∃ t, Inv t ∧ t.status = .halted :=
  ⟨State.reset.halt, ⟨by decide, by decide, by decide, by decide, by simp⟩, rfl⟩
theorem witness_EqualReadsEqualMemories : State.reset.mem.wf ∧ (State.reset.mem.write 255 0).wf ∧
    ∀ a, State.reset.mem.read a = (State.reset.mem.write 255 0).read a := ⟨by decide, by decide, fun _ => rfl⟩
theorem witness_AddLoopGivesTheExactSum : 255 + 3 < 2 ^ 9 := by decide
theorem witness_SubtractLoopEndsExactlyWhenNoUnderflow : (1 ≤ 244 ∧ 244 < 2 ^ 8) ∧ 0 < 1 := by decide
theorem witness_MultiplyLoopGivesTheProduct : 255 < 2 ^ 8 := by decide
theorem witness_DivideTruncatesTowardZero : Int.natAbs (-255) ≤ 255 ∧ 1 ≤ Int.natAbs 255 ∧ Int.natAbs 255 ≤ 255 := by decide

end Sys2Proof.Tests
end

section
/-! PROOFS of the family 10_state.md. What a step can leave is said once (`stepOutcome_of_next`): no handler runs, a handler raises a fault, or it
completes. The statements about status, `pc`, `sp`, the registers and the invariant are then facts about these three outcomes. -/

/-! ### The nine opcodes -/

namespace Sys2Proof

/-- The instructions that push a byte: they alone lower `sp` (10_state.md R31). -/
def Instr.pushes : Instr → Bool
  | .push | .call => true
  | _ => false

/-- The instructions that pop a byte: they alone raise `sp` (10_state.md R31). -/
def Instr.pops : Instr → Bool
  | .pop | .ret => true
  | _ => false

/-- The instructions with a destination register, the one their first operand byte names (10_state.md R24). -/
def Instr.writesReg : Instr → Bool
  | .ldi | .add | .mul | .pop => true
  | _ => false

theorem decodeOpcode_opcode (i : Instr) : decodeOpcode i.opcode = some i := by cases i <;> rfl

/-- Only an instruction's own opcode byte decodes to it (30_encoding.md R72). -/
theorem eq_opcode_of_decodeOpcode {b : Byte} {i : Instr} (h : decodeOpcode b = some i) : b = i.opcode := by
  obtain ⟨l₁, l₂, hl, -⟩ := List.lookup_eq_some_iff.mp h
  have hmem : (b, i) ∈ opcodeTable := by simp [hl]
  have hrows : ∀ r ∈ opcodeTable, r.1 = r.2.opcode := by decide
  exact hrows _ hmem

theorem opcode_eq_hlt_iff (i : Instr) : i.opcode = 0x01#8 ↔ i = .hlt := by cases i <;> decide

theorem opcode_mem_pushes_iff (i : Instr) : i.opcode ∈ [0x45#8, 0x50#8] ↔ i.pushes = true := by cases i <;> decide

theorem opcode_mem_pops_iff (i : Instr) : i.opcode ∈ [0x46#8, 0x11#8] ↔ i.pops = true := by cases i <;> decide

theorem opcode_mem_stack_iff (i : Instr) :
    i.opcode ∈ [0x45#8, 0x50#8, 0x46#8, 0x11#8] ↔ i.pushes = true ∨ i.pops = true := by cases i <;> decide

theorem opcode_mem_writesReg_iff (i : Instr) : i.opcode ∈ [0x82#8, 0xA0#8, 0xA2#8, 0x46#8] ↔ i.writesReg = true := by
  cases i <;> decide

end Sys2Proof

namespace Sys2Proof.Machine

variable {s t u : State} {i : Instr}

/-! ### The state a completed handler leaves -/

/-- Operand byte `k` of the instruction at `pc` (40_dispatcher.md R96). -/
abbrev State.operand (s : State) (k : Nat) : Byte := s.mem.read (s.pc.toNat + k)

/-- The value of the register that operand byte `k` names (30_encoding.md R73). -/
abbrev State.operandReg (s : State) (k : Nat) : Byte := s.reg (s.operand k).toNat

/-- The destination register set to an operation's result on the two operand registers (41_alu.md R115). -/
abbrev State.aluWritten (s : State) (op : AluOp) : State :=
  s.setReg (s.operand 1).toNat (lowByte (op.compute (s.operandReg 1).toNat (s.operandReg 2).toNat))

/-- Every effect of a handler that completes, but for the last one, on `pc` (40_dispatcher.md R95). -/
def State.effect (s : State) : Instr → State
  | .ldi => s.setReg (s.operand 1).toNat (s.operand 2)
  | .prn => s.output (s.operandReg 1)
  | .hlt => s.halt
  | .add => s.aluWritten .add
  | .mul => s.aluWritten .mul
  | .pop => (s.setReg (s.operand 1).toNat (s.mem.read s.sp.toNat)).incrementSp
  | .push => { s.pushed with mem := s.mem.write (s.sp.toNat - 1) (s.operandReg 1) }
  | .ret => s.incrementSp
  | .call => s.called

/-- Where a handler that completes leaves `pc` (10_state.md R27). -/
def State.target (s : State) : Instr → Nat
  | .ret => (s.mem.read s.sp.toNat).toNat
  | .call => (s.reg (s.called.mem.read (s.pc.toNat + 1)).toNat).toNat
  | i => s.pc.toNat + i.length

/-- The state after a handler that completes. -/
abbrev State.completed (s : State) (i : Instr) : State := (s.effect i).setPc (s.target i)

/-- What holds when a handler completes, as far as `pc` and `sp` go: its bytes lie below 256 and its test of `sp` passed. -/
structure State.Completes (s : State) (i : Instr) : Prop where
  bytes : s.pc.toNat + i.length ≤ 256
  nonempty : i.pops = true → s.sp ≠ 0xF4#8
  positive : i.pushes = true → 0 < s.sp.toNat

/-- Setting register `k` changes no other, and nothing at all where there is no register `k` (10_state.md R23). -/
theorem State.eq_of_setReg_reg_ne {k j : Nat} {v : Byte} (h : (s.setReg k v).reg j ≠ s.reg j) : j = k ∧ j < 8 := by
  have hk : j = k := by
    by_contra hne
    exact h (s.reg_setReg_other (Ne.symm hne) v)
  refine ⟨hk, ?_⟩
  by_contra hj
  exact h (by simp [State.reg, Vector.getD, hj])

theorem State.effect_status (s : State) (i : Instr) : (s.effect i).status = if i = .hlt then .halted else s.status := by
  cases i <;> rfl

theorem State.effect_fault (s : State) (i : Instr) : (s.effect i).fault = s.fault := by cases i <;> rfl

theorem State.effect_sp (s : State) (i : Instr) :
    (s.effect i).sp = if i.pushes then lowByte (s.sp.toNat - 1) else if i.pops then s.incrementSp.sp else s.sp := by
  cases i <;> rfl

/-- A register that a handler changes is its destination (10_state.md R24). -/
theorem State.eq_operand_of_effect_reg_ne {j : Nat} (h : (s.effect i).reg j ≠ s.reg j) :
    i.writesReg = true ∧ j = (s.operand 1).toNat ∧ j < 8 := by
  cases i with
  | ldi | add | mul | pop => exact ⟨rfl, State.eq_of_setReg_reg_ne h⟩
  | prn | hlt | push | ret | call => exact absurd rfl h

/-- A handler that completes leaves `pc` at most 256: 256 itself only after the last bytes of memory (10_state.md R26). -/
theorem State.target_le (hc : s.Completes i) : s.target i ≤ 256 := by
  cases i with
  | ret => exact (s.mem.read s.sp.toNat).isLt.le
  | call => exact (s.reg (s.called.mem.read (s.pc.toNat + 1)).toNat).isLt.le
  | ldi | prn | hlt | add | mul | pop | push => exact hc.bytes

theorem State.completed_pc_toNat (hc : s.Completes i) : (s.completed i).pc.toNat = s.target i := by
  have := State.target_le hc
  simp only [State.setPc_pc, BitVec.toNat_ofNat]
  omega

theorem State.completed_status_ne_faulted (hr : s.status = .running) (i : Instr) : (s.completed i).status ≠ .faulted := by
  rw [State.setPc_status, State.effect_status, hr]
  split <;> nofun

/-- A push lowers `sp` by exactly 1 (10_state.md R31). -/
theorem State.pushed_sp_succ (h : 0 < s.sp.toNat) : s.pushed.sp.toNat + 1 = s.sp.toNat := by
  rw [toNat_lowByte_pred h]
  exact Nat.sub_add_cancel h

/-! ### The states in which a handler raises a fault -/

/-- `s.RaisesFrom i u`: the handler of `i`, started in `s`, can raise a fault in `u`, after the effects that 60_exceptions.md R168 lists. -/
inductive State.RaisesFrom (s : State) : Instr → State → Prop where
  /-- Before any effect. HLT never faults, and PUSH and CALL decrement `sp` first, unless it is 0. -/
  | unchanged {i : Instr} (hi : i ≠ .hlt) (hsp : i.pushes = true → s.sp.toNat = 0) : s.RaisesFrom i s
  /-- With `sp` decremented. -/
  | pushed {i : Instr} (hi : i.pushes = true) (hsp : 0 < s.sp.toNat) : s.RaisesFrom i s.pushed
  /-- With the return address written too. -/
  | called (hsp : 0 < s.sp.toNat) : s.RaisesFrom .call s.called

namespace State.RaisesFrom

theorem ne_hlt (h : s.RaisesFrom i u) : i ≠ .hlt := by
  cases h with
  | unchanged hi => exact hi
  | pushed hi => rintro rfl; cases hi
  | called => decide

theorem pc_eq (h : s.RaisesFrom i u) : u.pc = s.pc := by cases h <;> rfl

theorem regs_eq (h : s.RaisesFrom i u) : u.regs = s.regs := by cases h <;> rfl

theorem sp_eq_of_not_pushes (h : s.RaisesFrom i u) (hi : ¬i.pushes = true) : u.sp = s.sp := by
  cases h with
  | unchanged => rfl
  | pushed hi' => exact absurd hi' hi
  | called => exact absurd rfl hi

theorem sp_of_pushes (h : s.RaisesFrom i u) (hi : i.pushes = true) :
    (0 < s.sp.toNat ∧ u.sp = s.pushed.sp) ∨ (s.sp.toNat = 0 ∧ u.sp = s.sp) := by
  cases h with
  | unchanged _ hsp => exact .inr ⟨hsp hi, rfl⟩
  | pushed _ hsp | called hsp => exact .inl ⟨hsp, rfl⟩

end State.RaisesFrom

/-! ### What a handler and a step can leave -/

/-- What the handler of `i`, started in `s`, can leave. -/
inductive ExecOutcome (i : Instr) (s : State) : State → Prop where
  /-- It raises a fault. -/
  | raised {u : State} (c : Cause) (hu : s.RaisesFrom i u) : ExecOutcome i s (u.faultedBy c)
  /-- It completes. -/
  | completed (hc : s.Completes i) : ExecOutcome i s (s.completed i)

/-- Every handler that runs after a fetch that did not fault. -/
theorem execOutcome_of_next (hpc : s.pc.toNat < 256) (h : exec i s = .next t) : ExecOutcome i s t := by
  cases i with
  | ldi =>
    rcases execLdi_next h with ⟨-, rfl⟩ | ⟨-, -, rfl⟩ | ⟨-, -, rfl⟩ | ⟨hb, -, rfl⟩
    iterate 3 · exact .raised _ (.unchanged nofun nofun)
    · exact .completed ⟨hb, nofun, nofun⟩
  | prn =>
    rcases execPrn_next h with ⟨-, rfl⟩ | ⟨-, -, rfl⟩ | ⟨hb, -, rfl⟩
    iterate 2 · exact .raised _ (.unchanged nofun nofun)
    · exact .completed ⟨hb, nofun, nofun⟩
  | hlt =>
    obtain rfl := execHlt_next h
    exact .completed ⟨hpc, nofun, nofun⟩
  | add | mul =>
    rcases aluApply_advance_next h with ⟨-, rfl⟩ | ⟨-, -, rfl⟩ | ⟨-, -, -, rfl⟩ | ⟨hb, -, -, rfl⟩
    iterate 3 · exact .raised _ (.unchanged nofun nofun)
    · exact .completed ⟨hb, nofun, nofun⟩
  | pop =>
    rcases execPop_next h with ⟨-, rfl⟩ | ⟨-, -, rfl⟩ | ⟨-, -, -, rfl⟩ | ⟨hsp, hb, -, rfl⟩
    iterate 3 · exact .raised _ (.unchanged nofun nofun)
    · exact .completed ⟨hb, fun _ => hsp, nofun⟩
  | push =>
    rcases execPush_next h with ⟨hsp, rfl⟩ | ⟨hsp, -, rfl⟩ | ⟨hb, -, rfl⟩ | ⟨hb, -, rfl⟩
    · exact .raised _ (.unchanged nofun fun _ => hsp)
    · exact .raised _ (.pushed rfl hsp)
    · exact .raised _ (.pushed rfl (by omega))
    · exact .completed ⟨by have := s.sp.isLt; simp only [Instr_length_push]; omega, nofun, fun _ => by omega⟩
  | ret =>
    rcases execRet_next h with ⟨-, rfl⟩ | ⟨hsp, rfl⟩
    · exact .raised _ (.unchanged nofun nofun)
    · exact .completed ⟨hpc, fun _ => hsp, nofun⟩
  | call =>
    rcases execCall_next h with ⟨hsp, rfl⟩ | ⟨hsp, -, rfl⟩ | ⟨hsp, -, -, rfl⟩ | ⟨hsp, -, -, -, rfl⟩ | ⟨hsp, -, hb, -, rfl⟩
    · exact .raised _ (.unchanged nofun fun _ => hsp)
    · exact .raised _ (.pushed rfl hsp)
    · exact .raised _ (.pushed rfl hsp)
    · exact .raised _ (.called hsp)
    · exact .completed ⟨hb.le, nofun, fun _ => hsp⟩

/-- The state in which a handler starts: the opcode is in `ir` (40_dispatcher.md R91). -/
abbrev State.fetched (s : State) (b : Byte) : State := { s with ir := b }

/-- What a step from `s` can leave. -/
inductive StepOutcome (s : State) : State → Prop where
  /-- The fetch faults or the byte at `pc` is no opcode; a fetch that faults leaves `ir` too. -/
  | noHandler (b : Byte) (c : Cause) (hop : s.pc.toNat < 256 → ∀ i : Instr, s.mem.read s.pc.toNat ≠ i.opcode) :
      StepOutcome s ((s.fetched b).faultedBy c)
  /-- The handler of the opcode at `pc` raises a fault. -/
  | raised {i : Instr} {u : State} (c : Cause) (hpc : s.pc.toNat < 256) (hop : s.mem.read s.pc.toNat = i.opcode)
      (hu : (s.fetched i.opcode).RaisesFrom i u) : StepOutcome s (u.faultedBy c)
  /-- It completes. -/
  | completed {i : Instr} (hpc : s.pc.toNat < 256) (hop : s.mem.read s.pc.toNat = i.opcode)
      (hc : (s.fetched i.opcode).Completes i) : StepOutcome s ((s.fetched i.opcode).completed i)

theorem stepOutcome_of_next (h : step s = .next t) : s.status = .running ∧ StepOutcome s t := by
  obtain ⟨hr, ⟨hpc, rfl⟩ | ⟨-, hnone, rfl⟩ | ⟨hpc, i, hi, h⟩⟩ := step_next h
  · exact ⟨hr, .noHandler s.ir _ fun hlt => absurd hlt (Nat.not_lt.mpr hpc)⟩
  · refine ⟨hr, .noHandler _ _ fun _ i hop => ?_⟩
    rw [hop, decodeOpcode_opcode] at hnone
    cases hnone
  · have hop := eq_opcode_of_decodeOpcode hi
    rw [hop] at h
    cases execOutcome_of_next (s := s.fetched i.opcode) hpc h with
    | raised c hu => exact ⟨hr, .raised c hpc hop hu⟩
    | completed hc => exact ⟨hr, .completed hpc hop hc⟩

/-! ### The invariant -/

namespace Inv

theorem fault_eq_none (h : Inv s) (hr : s.status ≠ .faulted) : s.fault = none := by
  simpa [hr] using h.fault_iff

/-- Without a fault, the invariant is about memory, `pc` and `sp`. -/
theorem of_fault_eq_none (hm : s.mem.wf) (hpc : s.pc.toNat ≤ 256) (hsp : s.sp.toNat ≤ 244) (hf : s.fault = none)
    (hs : s.status ≠ .faulted) : Inv s :=
  ⟨hm, hpc, hsp, by simp [hf, hs], by simp [hf]⟩

/-- A fault keeps the invariant, for it records the `pc` it leaves (60_exceptions.md R168). -/
theorem faultedBy (h : Inv s) (c : Cause) : Inv (s.faultedBy c) :=
  ⟨h.memory, h.pc_le, h.sp_le, by simp, by simp⟩

theorem fetched (h : Inv s) (b : Byte) : Inv (s.fetched b) := ⟨h.memory, h.pc_le, h.sp_le, h.fault_iff, h.fault_pc⟩

theorem pushed (h : Inv s) : Inv s.pushed := by
  refine ⟨h.memory, h.pc_le, ?_, h.fault_iff, h.fault_pc⟩
  have hle : s.sp.toNat ≤ 244 := h.sp_le
  show (lowByte (s.sp.toNat - 1)).toNat ≤ 244
  simp only [lowByte, BitVec.toNat_ofNat]
  omega

theorem called (h : Inv s) : Inv s.called :=
  ⟨Memory.write_wf h.memory (Nat.lt_of_le_of_lt (Nat.sub_le _ _) s.sp.isLt) _, h.pc_le, h.pushed.sp_le, h.fault_iff, h.fault_pc⟩

theorem of_raisesFrom (h : Inv s) (hu : s.RaisesFrom i u) : Inv u := by
  cases hu with
  | unchanged => exact h
  | pushed => exact h.pushed
  | called => exact h.called

theorem effect_mem (h : Inv s) (i : Instr) : (s.effect i).mem.wf := by
  cases i with
  | push | call => exact Memory.write_wf h.memory (Nat.lt_of_le_of_lt (Nat.sub_le _ _) s.sp.isLt) _
  | ldi | prn | hlt | add | mul | pop | ret => exact h.memory

/-- Below the sentinel 0xF4 there is room for `sp` to rise. -/
theorem incrementSp_sp (h : Inv s) (hsp : s.sp ≠ 0xF4#8) : s.sp.toNat < 244 ∧ s.incrementSp.sp.toNat = s.sp.toNat + 1 := by
  have hne : s.sp.toNat ≠ 244 := fun he => hsp (BitVec.eq_of_toNat_eq he)
  have hlt : s.sp.toNat < 244 := Nat.lt_of_le_of_ne h.sp_le hne
  exact ⟨hlt, toNat_lowByte_succ (by omega)⟩

theorem effect_sp (h : Inv s) (hc : s.Completes i) : (s.effect i).sp.toNat ≤ 244 := by
  rw [State.effect_sp]
  split
  · exact h.pushed.sp_le
  · split
    · have := h.incrementSp_sp (hc.nonempty ‹_›)
      omega
    · exact h.sp_le

theorem completed (h : Inv s) (hr : s.status = .running) (hc : s.Completes i) : Inv (s.completed i) := by
  refine of_fault_eq_none (h.effect_mem i) ?_ (h.effect_sp hc) ?_ (State.completed_status_ne_faulted hr i)
  · rw [State.completed_pc_toNat hc]
    exact State.target_le hc
  · rw [State.setPc_fault, State.effect_fault]
    exact h.fault_eq_none (by simp [hr])

theorem load {image : List Byte} (h : State.load image = some s) : Inv s := by
  unfold State.load at h
  split at h
  · cases h
    exact of_fault_eq_none (Memory.loadFrom_wf State.reset_mem_wf 0 image (by omega)) (Nat.zero_le _) (Nat.le_refl _) rfl nofun
  · cases h

end Inv

/-- Settles O53: each of the three outcomes of a step keeps the invariant. -/
theorem stepKeepsInv : Obligations.StepKeepsInv := by
  intro s t hinv h
  obtain ⟨hr, hout⟩ := stepOutcome_of_next h
  cases hout with
  | noHandler b c => exact (hinv.fetched b).faultedBy c
  | raised c _ _ hu => exact ((hinv.fetched _).of_raisesFrom hu).faultedBy c
  | completed _ _ hc => exact (hinv.fetched _).completed hr hc

/-- Settles O54, by induction over the run from the loaded state. -/
theorem invOfEveryReachableState : Obligations.InvOfEveryReachableState :=
  fun _ _ _ hload hreach => hreach.keeps stepKeepsInv (Inv.load hload)

/-! ### Status, `pc`, `sp`, registers and `ir` over a step -/

/-- Settles O14: HLT is the one instruction that never faults and the one that halts. -/
theorem statusTransitions : Obligations.StatusTransitions := by
  refine ⟨rfl, fun s t h => ?_⟩
  obtain ⟨hr, hout⟩ := stepOutcome_of_next h
  refine ⟨hr, ?_⟩
  cases hout with
  | noHandler b c hop => exact ⟨⟨nofun, fun ⟨hpc, hhlt⟩ => absurd hhlt (hop hpc .hlt)⟩, fun _ => ⟨c, rfl⟩, fun hne => absurd rfl hne⟩
  | @raised i u c _ hop hu =>
    refine ⟨⟨nofun, fun ⟨_, hhlt⟩ => ?_⟩, fun _ => ⟨c, by simp [hu.pc_eq]⟩, fun hne => absurd rfl hne⟩
    exact absurd ((opcode_eq_hlt_iff i).mp (hop ▸ hhlt)) hu.ne_hlt
  | @completed i hpc hop hc =>
    refine ⟨?_, fun hf => absurd hf (State.completed_status_ne_faulted (s := s.fetched i.opcode) hr i), fun _ => State.effect_fault _ i⟩
    simp [State.effect_status, hr, hpc, hop, opcode_eq_hlt_iff]

/-- Settles O15: a fault leaves `pc`, and a handler that completes sets it to its target. -/
theorem pcChangesInThreeWays : Obligations.PcChangesInThreeWays := by
  intro s t h
  obtain ⟨hr, hout⟩ := stepOutcome_of_next h
  cases hout with
  | noHandler => exact ⟨fun _ => rfl, fun hne => absurd rfl hne⟩
  | raised c _ _ hu => exact ⟨fun _ => hu.pc_eq, fun hne => absurd rfl hne⟩
  | @completed i _ hop hc =>
    refine ⟨fun hf => absurd hf (State.completed_status_ne_faulted (s := s.fetched i.opcode) hr i), fun _ => ?_⟩
    rw [State.completed_pc_toNat hc, hop]
    cases i with
    | ldi | add | mul => exact .inl ⟨by decide, rfl⟩
    | prn | pop | push => exact .inr (.inl ⟨by decide, rfl⟩)
    | hlt => exact .inr (.inr (.inl ⟨rfl, rfl⟩))
    | call => exact .inr (.inr (.inr (.inl ⟨rfl, rfl⟩)))
    | ret => exact .inr (.inr (.inr (.inr ⟨rfl, rfl⟩)))

/-- Settles O16: by what the instruction does to the stack, whether it faults or completes. -/
theorem spChangesOnlyInStackInstructions : Obligations.SpChangesOnlyInStackInstructions := by
  intro s t hinv h
  obtain ⟨hr, hout⟩ := stepOutcome_of_next h
  cases hout with
  | noHandler b c hop =>
    refine .inr (.inr ⟨fun hpc => ?_, rfl⟩)
    have hop := hop hpc
    simp only [List.mem_cons, List.not_mem_nil, or_false, not_or]
    exact ⟨hop .push, hop .call, hop .pop, hop .ret⟩
  | @raised i u c hpc hop hu =>
    rw [hop, opcode_mem_pushes_iff, opcode_mem_pops_iff, opcode_mem_stack_iff]
    by_cases hpush : i.pushes = true
    · refine .inl ⟨hpc, hpush, ?_⟩
      rcases hu.sp_of_pushes hpush with ⟨hpos, hsp⟩ | ⟨hzero, hsp⟩
      · exact .inl ⟨hpos, by rw [State.faultedBy_sp, hsp]; exact State.pushed_sp_succ hpos⟩
      · have hzero : s.sp = 0#8 := BitVec.eq_of_toNat_eq hzero
        exact .inr ⟨hzero, hsp.trans hzero, rfl⟩
    · have hsp : u.sp = s.sp := hu.sp_eq_of_not_pushes hpush
      by_cases hpop : i.pops = true
      · exact .inr (.inl ⟨hpc, hpop, .inr ⟨rfl, hsp⟩⟩)
      · exact .inr (.inr ⟨by simp [hpush, hpop], hsp⟩)
  | @completed i hpc hop hc =>
    rw [hop, opcode_mem_pushes_iff, opcode_mem_pops_iff, opcode_mem_stack_iff, State.setPc_sp, State.effect_sp]
    by_cases hpush : i.pushes = true
    · have hpos := hc.positive hpush
      exact .inl ⟨hpc, hpush, .inl ⟨hpos, by rw [if_pos hpush]; exact State.pushed_sp_succ hpos⟩⟩
    · by_cases hpop : i.pops = true
      · refine .inr (.inl ⟨hpc, hpop, .inl ⟨?_, ?_⟩⟩)
        · have hne : i ≠ .hlt := by rintro rfl; cases hpop
          simp [State.effect_status, hne, hr]
        · rw [if_neg hpush, if_pos hpop]
          exact ((hinv.fetched _).incrementSp_sp (hc.nonempty hpop)).2
      · exact .inr (.inr ⟨by simp [hpush, hpop], by simp [hpush, hpop]⟩)

/-- Settles O17: a fault leaves the registers, and a handler that completes changes its destination alone. -/
theorem onlyDestinationRegisterChanges : Obligations.OnlyDestinationRegisterChanges := by
  intro s t j h hne
  obtain ⟨hr, hout⟩ := stepOutcome_of_next h
  cases hout with
  | noHandler => exact absurd rfl hne
  | raised c _ _ hu => exact absurd (by simp [State.reg, hu.regs_eq]) hne
  | @completed i _ hop hc =>
    obtain ⟨hwrites, hdest⟩ := State.eq_operand_of_effect_reg_ne hne
    have hhlt : i ≠ .hlt := by rintro rfl; cases hwrites
    rw [hop, opcode_mem_writesReg_iff]
    exact ⟨by simp [State.effect_status, hhlt, hr], hwrites, hdest⟩

/-- A fetch from memory puts the same byte in `ir` whatever was there. -/
theorem step_fetched_of_lt (hpc : s.pc.toNat < 256) (b : Byte) : step (s.fetched b) = step s := by
  unfold step fetchAndRun
  rw [withFetch_of_lt hpc, withFetch_of_lt (s := s.fetched b) hpc]
  rfl

/-- A fetch outside memory faults (40_dispatcher.md R91). -/
theorem step_of_pc_ge (hr : s.status = .running) (hpc : 256 ≤ s.pc.toNat) :
    step s = raise s (.outOfBoundsAddress .memAddress s.pc.toNat) := by
  rw [step, whenRunning_of_running hr, fetchAndRun, withFetch, withMemRead_of_ge hpc]

/-- Settles O49: the fetch overwrites `ir`, or faults without reading it. -/
theorem irIsUnobservable : Obligations.IrIsUnobservable := by
  intro s t b h
  rcases Nat.lt_or_ge s.pc.toNat 256 with hpc | hpc
  · exact ⟨t, (step_fetched_of_lt hpc b).trans h, rfl⟩
  · obtain ⟨hr, -⟩ := step_next h
    rw [step_of_pc_ge hr hpc, raise_next] at h
    subst h
    exact ⟨_, step_of_pc_ge (s := s.fetched b) hr hpc, rfl⟩

/-- Settles O1, by the reset state's own equations. -/
theorem resetRegistersPcSp : Obligations.ResetRegistersPcSp := by
  refine ⟨fun i hi => ?_, State.reset_pc, State.reset_sp⟩
  simp [State.reg, State.reset, Vector.getD, hi]

/-- Settles O26, by the laws of the two register operations. -/
theorem registerIndexIsChecked : Obligations.RegisterIndexIsChecked := by
  intro s i v f g
  refine ⟨fun hi => ⟨withRegRead_of_ge hi, withRegWrite_of_ge hi⟩, fun hi => ⟨withRegRead_of_lt hi, s.setReg i.toNat v, ?_⟩⟩
  exact ⟨withRegWrite_of_lt hi, s.reg_setReg_same hi v, fun j hj => s.reg_setReg_other hj.symm v, rfl⟩

end Sys2Proof.Machine
end

section
/-! PROOFS of the family 20_memory.md: which bytes memory holds after loading, which one cell a step can change, that the canonical form is
determined by the reads, and the bounds of the memory port. -/

namespace Sys2Proof.Machine

variable {s u : State} {i : Instr} {m : Memory} {a k : Nat} {v : Byte}

/-! ### Loading -/

/-- Loading leaves every cell outside the image's addresses alone (70_reset_and_hazards.md R191). -/
theorem Memory.read_loadFrom_other (m : Memory) (image : List Byte) (h : a < k ∨ k + image.length ≤ a) :
    (m.loadFrom k image).read a = m.read a := by
  induction image generalizing m k with
  | nil => rfl
  | cons b bs ih =>
    rw [List.length_cons] at h
    rw [Memory.loadFrom, ih (m.write k b) (by omega)]
    exact m.read_write_other (by omega) b

/-- Byte `j` of an image loaded from address `k` lies at `k + j`: each write reaches a cell that no later write of the load touches. -/
theorem Memory.read_loadFrom_image (hm : m.wf) (image : List Byte) (hk : k + image.length ≤ Config.memSize) (j : Nat)
    (hj : j < image.length) :
    (m.loadFrom k image).read (k + j) = image[j] := by
  induction image generalizing m k j with
  | nil => cases hj
  | cons b bs ih =>
    rw [List.length_cons] at hk hj
    cases j with
    | zero =>
      rw [Memory.loadFrom, Memory.read_loadFrom_other _ _ (.inl (by omega))]
      exact Memory.read_write_same hm k b
    | succ j =>
      have hwf : (m.write k b).wf := Memory.write_wf hm (by omega) b
      have := ih hwf (k := k + 1) (by omega) j (by omega)
      rwa [Nat.add_right_comm] at this

/-- An image that loads fits in memory, and stands there from address 0 (92_eei_decisions.md D15). -/
theorem State.load_mem {image : List Byte} (h : State.load image = some s) :
    image.length ≤ Config.memSize ∧ s.mem = State.reset.mem.loadFrom 0 image := by
  unfold State.load at h
  split at h
  · cases h
    exact ⟨‹_›, rfl⟩
  · cases h

theorem State.reset_mem_read (a : Nat) : State.reset.mem.read a = 0#8 := rfl

/-- Settles O3, by the reads after a load from address 0 into the empty memory. -/
theorem loadedMemoryIsImage : Obligations.LoadedMemoryIsImage := by
  refine ⟨State.reset_mem_read, fun image s h => ?_⟩
  obtain ⟨hfits, hmem⟩ := State.load_mem h
  rw [hmem]
  refine ⟨fun a ha => ?_, fun a ha => ?_⟩
  · have := Memory.read_loadFrom_image State.reset_mem_wf image (k := 0) (by omega) a ha
    rwa [Nat.zero_add] at this
  · rw [Memory.read_loadFrom_other _ _ (.inr (by omega))]
    exact State.reset_mem_read a

/-! ### The one cell a step can change -/

/-- A cell that a write changes is the one written (20_memory.md R57). -/
theorem Memory.eq_of_read_write_ne {a' : Nat} (h : (m.write a v).read a' ≠ m.read a') : a' = a := by
  by_contra hne
  exact h (m.read_write_other hne v)

/-- A cell that a write at the decremented `sp` changes lies just below the old `sp`, where the new one points. -/
theorem State.pushed_cell_of_read_ne (hsp : 0 < s.sp.toNat) (h : (s.mem.write (s.sp.toNat - 1) v).read a ≠ s.mem.read a) :
    a + 1 = s.sp.toNat ∧ a = s.pushed.sp.toNat := by
  have ha : a = s.sp.toNat - 1 := Memory.eq_of_read_write_ne h
  have hpushed := State.pushed_sp_succ hsp
  omega

/-- A cell that differs where a fault is raised is the one CALL wrote. -/
theorem State.RaisesFrom.pushed_cell_of_read_ne (hu : s.RaisesFrom i u) (h : u.mem.read a ≠ s.mem.read a) :
    i.pushes = true ∧ a + 1 = s.sp.toNat ∧ a = u.sp.toNat := by
  cases hu with
  | unchanged | pushed => exact absurd rfl h
  | called hsp => exact ⟨rfl, State.pushed_cell_of_read_ne hsp h⟩

/-- A cell that a handler's effects change is the one PUSH or CALL wrote. -/
theorem State.effect_pushed_cell_of_read_ne (hc : s.Completes i) (h : (s.effect i).mem.read a ≠ s.mem.read a) :
    i.pushes = true ∧ a + 1 = s.sp.toNat ∧ a = (s.effect i).sp.toNat := by
  cases i with
  | push | call => exact ⟨rfl, State.pushed_cell_of_read_ne (hc.positive rfl) h⟩
  | ldi | prn | hlt | add | mul | pop | ret => exact absurd rfl h

/-- Settles O18: without a handler memory stays, and a handler that faults or completes changes at most the pushed cell. -/
theorem onlyPushedCellChanges : Obligations.OnlyPushedCellChanges := by
  intro s t a h hne
  obtain ⟨-, hout⟩ := stepOutcome_of_next h
  cases hout with
  | noHandler => exact absurd rfl hne
  | @raised i _ _ _ hop hu =>
    rw [hop, opcode_mem_pushes_iff]
    exact hu.pushed_cell_of_read_ne hne
  | @completed i _ hop hc =>
    rw [hop, opcode_mem_pushes_iff]
    exact State.effect_pushed_cell_of_read_ne hc hne

/-- Settles O19: the changed cell lies below `sp`, which is at most 0xF4 (10_state.md R30). -/
theorem stackNeverWritesSentinelOrAbove : Obligations.StackNeverWritesSentinelOrAbove := by
  intro s t a hinv h ha
  by_contra hne
  obtain ⟨-, hcell, -⟩ := onlyPushedCellChanges s t a h hne
  have hsp : s.sp.toNat ≤ 244 := hinv.sp_le
  omega

/-! ### The canonical form is determined by the reads -/

/-- A byte other than 0 is read from a listed cell. -/
theorem mem_of_lookupCell_ne_zero {cs : List Host.Cell} (h : lookupCell cs a ≠ 0#8) : (a, lookupCell cs a) ∈ cs := by
  induction cs with
  | nil => exact absurd rfl h
  | cons c rest ih =>
    obtain ⟨b, w⟩ := c
    unfold lookupCell at h ⊢
    split
    · subst a
      exact List.mem_cons_self
    · rw [if_neg ‹_›] at h
      exact List.mem_cons_of_mem _ (ih h)

/-- Where addresses strictly rise, a listed cell is read at its address: no earlier cell hides it. -/
theorem lookupCell_of_mem {cs : List Host.Cell} (hs : cs.Pairwise (fun c d => c.1 < d.1)) (h : (a, v) ∈ cs) : lookupCell cs a = v := by
  induction hs with
  | nil => cases h
  | @cons c rest hlt _ ih =>
    obtain ⟨b, w⟩ := c
    rcases List.mem_cons.mp h with heq | hrest
    · cases heq
      exact if_pos rfl
    · have hba : b < a := hlt _ hrest
      rw [lookupCell, if_neg hba.ne']
      exact ih hrest

/-- A canonical memory lists exactly the bytes other than 0 that it reads. -/
theorem Memory.mem_cells_iff (hm : m.wf) : (a, v) ∈ m.cells ↔ v ≠ 0#8 ∧ m.read a = v := by
  obtain ⟨hrising, hcells⟩ := hm
  constructor
  · exact fun h => ⟨(hcells _ h).1, lookupCell_of_mem hrising h⟩
  · rintro ⟨hv, rfl⟩
    exact mem_of_lookupCell_ne_zero hv

/-- Settles O56: both lists have the same cells, and a strictly rising list is determined by its elements. -/
theorem equalReadsEqualMemories : Obligations.EqualReadsEqualMemories := by
  intro m m' hm hm' hread
  have hasymm : Std.Asymm (fun c d : Host.Cell => c.1 < d.1) := ⟨fun _ _ => Nat.lt_asymm⟩
  have hcells : m.cells = m'.cells := hm.1.eq_of_mem_iff hm'.1 fun ⟨a, v⟩ => by
    rw [Memory.mem_cells_iff hm, Memory.mem_cells_iff hm', hread]
  exact congrArg Memory.mk hcells

/-! ### The memory port -/

/-- Settles O27, by the two laws of the memory read. -/
theorem memReadIsBoundsChecked : Obligations.MemReadIsBoundsChecked :=
  fun _ _ _ => ⟨withMemRead_of_ge, withMemRead_of_lt⟩

/-- Settles O28, by the two laws of the memory write and what a read after a write gives. -/
theorem memWriteIsBoundsChecked : Obligations.MemWriteIsBoundsChecked := by
  intro s addr v g hm
  refine ⟨withMemWrite_of_ge, fun haddr => ⟨{ s with mem := s.mem.write addr v }, withMemWrite_of_lt haddr, ?_, ?_, rfl⟩⟩
  · exact Memory.read_write_same hm addr v
  · exact fun a ha => s.mem.read_write_other ha v

end Sys2Proof.Machine
end

section
/-! PROOFS of the family 30_encoding.md. What `decode` answers is said once, one equivalence per answer: it gives an instruction exactly on a
well-formed instruction's bytes (`decode_eq_ok_iff`), and rejects the others by name. The opcode map rests on the nine opcode bytes above. -/

namespace Sys2Proof

variable {b : Byte} {bs rest : List Byte} {a : Instruction} {i : Instr}

/-! ### The answers of `decode` -/

theorem Instruction.wellFormed_iff : a.wellFormed = true ↔ a.operands.length = a.op.operandCount := beq_iff_eq

theorem decode_of_undefined (h : decodeOpcode b = none) : decode (b :: bs) = .error (.unknownOpcode b) := by
  simp [decode, h]

theorem decode_of_short (h : decodeOpcode b = some i) (hlen : bs.length < i.operandCount) :
    decode (b :: bs) = .error (.truncated i) := by
  simp [decode, h, hlen]

theorem decode_of_enough (h : decodeOpcode b = some i) (hlen : i.operandCount ≤ bs.length) :
    decode (b :: bs) = .ok (⟨i, bs.take i.operandCount⟩, bs.drop i.operandCount) := by
  simp [decode, h, Nat.not_lt.mpr hlen]

/-- The three answers of `decode` on a nonempty sequence, each with the condition under which it is given. -/
theorem decode_cons_cases (b : Byte) (bs : List Byte) :
    (decodeOpcode b = none ∧ decode (b :: bs) = .error (.unknownOpcode b)) ∨
    (∃ i, decodeOpcode b = some i ∧ bs.length < i.operandCount ∧ decode (b :: bs) = .error (.truncated i)) ∨
    (∃ i, decodeOpcode b = some i ∧ i.operandCount ≤ bs.length ∧
      decode (b :: bs) = .ok (⟨i, bs.take i.operandCount⟩, bs.drop i.operandCount)) := by
  cases hb : decodeOpcode b with
  | none => exact .inl ⟨rfl, decode_of_undefined hb⟩
  | some i =>
    rcases Nat.lt_or_ge bs.length i.operandCount with hlen | hlen
    · exact .inr (.inl ⟨i, rfl, hlen, decode_of_short hb hlen⟩)
    · exact .inr (.inr ⟨i, rfl, hlen, decode_of_enough hb hlen⟩)

theorem decode_encode_append (h : a.wellFormed = true) (rest : List Byte) : decode (encode a ++ rest) = .ok (a, rest) := by
  have hlen := Instruction.wellFormed_iff.mp h
  have hdec := decode_of_enough (bs := a.operands ++ rest) (decodeOpcode_opcode a.op) (by simp [hlen])
  rwa [List.take_left' hlen, List.drop_left' hlen] at hdec

/-- The decoder inverts the encoder: the bytes that decode are the well-formed instructions' bytes (30_encoding.md R70, R76, R77). -/
theorem decode_eq_ok_iff : decode bs = .ok (a, rest) ↔ a.wellFormed = true ∧ bs = encode a ++ rest := by
  refine ⟨fun h => ?_, fun ⟨hwf, hbs⟩ => hbs ▸ decode_encode_append hwf rest⟩
  cases bs with
  | nil => nomatch h
  | cons b bs =>
    rcases decode_cons_cases b bs with ⟨-, hdec⟩ | ⟨i, -, -, hdec⟩ | ⟨i, hb, hlen, hdec⟩
    · cases hdec.symm.trans h
    · cases hdec.symm.trans h
    · cases hdec.symm.trans h
      exact ⟨Instruction.wellFormed_iff.mpr (List.length_take_of_le hlen), by simp [encode, eq_opcode_of_decodeOpcode hb]⟩

theorem decode_eq_unknownOpcode_iff : decode (b :: bs) = .error (.unknownOpcode b) ↔ decodeOpcode b = none := by
  rcases decode_cons_cases b bs with ⟨hb, hdec⟩ | ⟨i, hb, -, hdec⟩ | ⟨i, hb, -, hdec⟩
  all_goals simp [hb, hdec]

theorem decode_eq_truncated_iff :
    decode (b :: bs) = .error (.truncated i) ↔ decodeOpcode b = some i ∧ bs.length < i.operandCount := by
  refine ⟨fun h => ?_, fun ⟨hb, hlen⟩ => decode_of_short hb hlen⟩
  rcases decode_cons_cases b bs with ⟨-, hdec⟩ | ⟨j, hb, hlen, hdec⟩ | ⟨j, -, -, hdec⟩
  · cases hdec.symm.trans h
  · cases hdec.symm.trans h
    exact ⟨hb, hlen⟩
  · cases hdec.symm.trans h

/-- Settles O8, by the format's operand bytes being the ones `decode` takes. -/
theorem decodeOfEncode : Obligations.DecodeOfEncode := fun _ rest h => decode_encode_append h rest

/-- Settles O9, by the equivalences of the three answers. -/
theorem decodedBytesAreEncoding : Obligations.DecodedBytesAreEncoding :=
  ⟨fun _ _ _ => decode_eq_ok_iff.mp, fun _ _ => ⟨decode_eq_unknownOpcode_iff, fun _ => decode_eq_truncated_iff⟩⟩

/-! ### The length and the opcode map -/

/-- The source's formula is the quotient by 64: the mask keeps both bits that the shift leaves (30_encoding.md R70). -/
theorem decodeLength_eq (b : Byte) : decodeLength b = b.toNat / 64 + 1 := by
  have hmask : ((b &&& 0b11000000#8) >>> 6).toNat = b.toNat / 64 % 2 ^ 2 := by
    rw [BitVec.toNat_ushiftRight, BitVec.toNat_and, Nat.shiftRight_and_distrib, Nat.shiftRight_eq_div_pow]
    exact Nat.and_two_pow_sub_one_eq_mod _ 2
  rw [decodeLength, hmask]
  omega

theorem operandCount_eq_high_bits (i : Instr) : i.operandCount = i.opcode.toNat / 64 := by cases i <;> rfl

theorem operandCount_le_two (i : Instr) : i.operandCount ≤ 2 := by cases i <;> decide

theorem opcode_mem_nine (i : Instr) :
    i.opcode ∈ [0x82#8, 0x47#8, 0x01#8, 0xA0#8, 0xA2#8, 0x46#8, 0x45#8, 0x11#8, 0x50#8] := by cases i <;> decide

/-- Settles O5: the length formula is a quotient, and a defined opcode is its instruction's own. -/
theorem lengthIsHighBitsPlusOne : Obligations.LengthIsHighBitsPlusOne := by
  intro b
  have hlen := decodeLength_eq b
  refine ⟨hlen, by omega, by omega, fun i hi => ?_⟩
  obtain rfl := eq_opcode_of_decodeOpcode hi
  exact ⟨operandCount_eq_high_bits i, operandCount_le_two i, rfl⟩

/-- Settles O6: the nine rows compute, and a byte that decodes is the opcode byte of one of the nine instructions. -/
theorem opcodeMapIsExactlyNineRows : Obligations.OpcodeMapIsExactlyNineRows := by
  refine ⟨by decide, fun b hb => Option.eq_none_iff_forall_ne_some.mpr fun i hi => hb ?_⟩
  rw [eq_opcode_of_decodeOpcode hi]
  exact opcode_mem_nine i

/-- Settles O7: the first six words are the encodings of their instructions, and 0x54 is no opcode. -/
theorem writtenWordsDecode : Obligations.WrittenWordsDecode :=
  ⟨decode_encode_append (a := .ldi 3#8 255#8) rfl [], decode_encode_append (a := .prn 7#8) rfl [],
    decode_encode_append (a := .hlt) rfl [], decode_encode_append (a := .add 1#8 2#8) rfl [],
    decode_encode_append (a := .push 4#8) rfl [], decode_encode_append (a := .call 5#8) rfl [],
    decode_of_undefined rfl⟩

end Sys2Proof
end

section
/-! PROOFS of the family 40_dispatcher.md. What a step does with the byte at `pc` is said once for each answer of the opcode table
(`step_of_decodeOpcode_eq_some`, `step_of_decodeOpcode_eq_none`); a step that does not fault is its handler completing (`completed_of_step`). -/

namespace Sys2Proof.Machine

variable {s t : State} {i : Instr} {b : Byte}

/-! ### Fetch and lookup -/

theorem lookup_of_some {handler : Instr → State → Result} (h : decodeOpcode s.ir = some i) : lookup s handler = handler i s := by
  simp [lookup, h]

theorem lookup_of_none {handler : Instr → State → Result} (h : decodeOpcode s.ir = none) :
    lookup s handler = raise s (.unknownInstruction s.ir s.pc) := by
  simp [lookup, h]

/-- A fetch from memory puts the byte at `pc` in `ir`, and the lookup decides the rest (40_dispatcher.md R91, R93). -/
theorem step_of_pc_lt (hr : s.status = .running) (hpc : s.pc.toNat < 256) (hb : s.mem.read s.pc.toNat = b) :
    step s = lookup (s.fetched b) exec := by
  rw [step, whenRunning_of_running hr, fetchAndRun, withFetch_of_lt hpc, hb]

/-- A defined opcode at `pc` runs its handler (40_dispatcher.md R93). -/
theorem step_of_decodeOpcode_eq_some (hr : s.status = .running) (hpc : s.pc.toNat < 256) (hb : s.mem.read s.pc.toNat = b)
    (hi : decodeOpcode b = some i) : step s = exec i (s.fetched b) :=
  (step_of_pc_lt hr hpc hb).trans (lookup_of_some hi)

/-- Any other byte at `pc` raises `UnknownInstruction` (40_dispatcher.md R93). -/
theorem step_of_decodeOpcode_eq_none (hr : s.status = .running) (hpc : s.pc.toNat < 256) (hb : s.mem.read s.pc.toNat = b)
    (hnone : decodeOpcode b = none) : step s = raise (s.fetched b) (.unknownInstruction b s.pc) :=
  (step_of_pc_lt hr hpc hb).trans (lookup_of_none hnone)

/-- Settles O11: the rows of the opcode table decode, and no other byte does. -/
theorem dispatchByOpcodeByte : Obligations.DispatchByOpcodeByte := by
  intro s hr hpc
  refine ⟨fun r hrow hb => ?_, fun hb => ?_⟩
  · have hrows : ∀ r ∈ opcodeTable, decodeOpcode r.1 = some r.2 := by decide
    exact step_of_decodeOpcode_eq_some hr hpc hb (hrows r hrow)
  · have hnone := opcodeMapIsExactlyNineRows.2 _ hb
    have hstep := step_of_decodeOpcode_eq_none hr hpc rfl hnone
    exact ⟨hstep, _, hstep, rfl, rfl, rfl, rfl, rfl⟩

/-! ### The instruction that the bytes at `pc` are -/

/-- `bytesFrom a n` lists the first `n` bytes from `a` on, as far as memory goes. -/
theorem Memory.getElem?_bytesFrom (m : Memory) (a n j : Nat) :
    (m.bytesFrom a n)[j]? = if j < n ∧ a + j < 256 then some (m.read (a + j)) else none := by
  induction n generalizing a j with
  | zero => simp [Memory.bytesFrom]
  | succ n ih =>
    rw [Memory.bytesFrom]
    rcases Nat.lt_or_ge a 256 with ha | ha
    · rw [if_pos ha]
      cases j with
      | zero => simp [ha]
      | succ j => simp [ih, Nat.add_comm 1 j, Nat.add_assoc]
    · rw [if_neg (Nat.not_lt.mpr ha), if_neg (by omega), List.getElem?_nil]

theorem Memory.read_of_getElem?_bytesFrom {m : Memory} {a n j : Nat} (h : (m.bytesFrom a n)[j]? = some b) :
    a + j < 256 ∧ m.read (a + j) = b := by
  rw [Memory.getElem?_bytesFrom] at h
  split at h
  · exact ⟨by omega, Option.some.inj h⟩
  · cases h

/-- Settles O10: the bytes that decode are the instruction's encoding, the opcode at `pc` and the operands after it. -/
theorem stepRunsTheDecodedInstruction : Obligations.StepRunsTheDecodedInstruction := by
  intro s a rest hr hdec
  obtain ⟨-, hbytes⟩ := decode_eq_ok_iff.mp hdec
  have hread : ∀ j c, (encode a ++ rest)[j]? = some c → s.pc.toNat + j < 256 ∧ s.mem.read (s.pc.toNat + j) = c :=
    fun j c h => Memory.read_of_getElem?_bytesFrom (hbytes ▸ h)
  obtain ⟨hpc, hop⟩ := hread 0 a.op.opcode rfl
  refine ⟨step_of_decodeOpcode_eq_some hr hpc hop (decodeOpcode_opcode a.op), fun k hk => ?_⟩
  rw [Nat.add_assoc, Nat.add_comm 1 k]
  exact (hread (k + 1) _ (by simp [encode, List.getElem?_append_left hk])).2

/-! ### Chains of steps -/

/-- A step that does not fault is the handler of the opcode at `pc` completing. -/
theorem completed_of_step (h : step s = .next t) (ht : t.status ≠ .faulted) :
    ∃ i : Instr, s.pc.toNat < 256 ∧ s.mem.read s.pc.toNat = i.opcode ∧ (s.fetched i.opcode).Completes i ∧
      t = (s.fetched i.opcode).completed i := by
  obtain ⟨-, hout⟩ := stepOutcome_of_next h
  cases hout with
  | noHandler | raised => exact absurd rfl ht
  | completed hpc hop hc => exact ⟨_, hpc, hop, hc, rfl⟩

/-- A PUSH or a CALL that succeeds lowers `sp` by 1 (10_state.md R31). -/
theorem sp_succ_of_step_push (hop : s.mem.read s.pc.toNat ∈ [0x45#8, 0x50#8]) (h : step s = .next t) (ht : t.status ≠ .faulted) :
    t.sp.toNat + 1 = s.sp.toNat := by
  obtain ⟨i, -, hi, hc, rfl⟩ := completed_of_step h ht
  have hpush : i.pushes = true := (opcode_mem_pushes_iff i).mp (hi ▸ hop)
  rw [State.setPc_sp, State.effect_sp, if_pos hpush]
  exact State.pushed_sp_succ (hc.positive hpush)

/-- Settles O47, by induction on the length of the chain. -/
theorem callChainIsBounded : Obligations.CallChainIsBounded := by
  intro n f hchain
  have hsp : (f n).sp.toNat + n = (f 0).sp.toNat := by
    induction n with
    | zero => rfl
    | succ n ih =>
      obtain ⟨hop, hstep, hrun⟩ := hchain n (Nat.lt_succ_self n)
      have hlast := sp_succ_of_step_push (by simp [hop]) hstep (by simp [hrun])
      have hbefore := ih fun k hk => hchain k (Nat.lt_succ_of_lt hk)
      omega
  exact ⟨by omega, hsp⟩

end Sys2Proof.Machine
end

section
/-! PROOFS of the family 41_alu.md: the loops of the arithmetic primitives, by induction on their turns, and the two ALU instructions, by one
rule for each way `apply` ends (41_alu.md R115). -/

namespace Sys2Proof.Machine

/-! ### The XOR/AND loop of `add` (41_alu.md R110) -/

/-- One turn of the loop keeps the sum: the XOR is the sum without carries, the shifted AND the carries. -/
theorem xor_add_shiftLeft_and (a b : Nat) : (a ^^^ b) + (a &&& b) <<< 1 = a + b := by
  induction a using Nat.strong_induction_on generalizing b with
  | _ a ih =>
    rcases Nat.eq_zero_or_pos a with rfl | hpos
    · simp
    · have hhalves := ih (a / 2) (by omega) (b / 2)
      rw [← Nat.xor_div_two, ← Nat.and_div_two] at hhalves
      have hxor : (a ^^^ b) % 2 = (a + b) % 2 := Nat.xor_mod_two_eq
      have hand : (a &&& b) % 2 = 1 ↔ a % 2 = 1 ∧ b % 2 = 1 := Nat.and_mod_two_eq_one
      omega

/-- The carries stand above the low bits that `b` has clear. -/
theorem two_pow_succ_dvd_shiftLeft_and {k b : Nat} (h : 2 ^ k ∣ b) (a : Nat) : 2 ^ (k + 1) ∣ (a &&& b) <<< 1 := by
  have hand : 2 ^ k ∣ a &&& b := by
    rw [Nat.dvd_iff_mod_eq_zero, Nat.and_mod_two_pow, Nat.mod_eq_zero_of_dvd h, Nat.and_zero]
  rw [Nat.shiftLeft_eq, Nat.pow_succ]
  exact Nat.mul_dvd_mul_right hand 2

/-- After `k` turns `b` has its low `k` bits clear; once it has as many clear as the sum has bits, it is 0. -/
theorem addLoop_eq_sum {n k a b : Nat} (hb : 2 ^ k ∣ b) (hsum : a + b < 2 ^ (k + n)) : addLoop n a b = some (a + b) := by
  induction n generalizing k a b with
  | zero =>
    obtain rfl : b = 0 := Nat.eq_zero_of_dvd_of_lt hb (Nat.lt_of_le_of_lt (Nat.le_add_left b a) hsum)
    rfl
  | succ n ih =>
    rw [addLoop]
    split
    · simp [‹b = 0›]
    · rw [ih (two_pow_succ_dvd_shiftLeft_and hb a), xor_add_shiftLeft_and]
      rwa [xor_add_shiftLeft_and, Nat.add_assoc, Nat.add_comm 1 n]

/-- Settles O57: no bit of `b` need be clear at the start. -/
theorem addLoopGivesTheExactSum : Obligations.AddLoopGivesTheExactSum :=
  fun _ _ _ hsum => addLoop_eq_sum (k := 0) (Nat.one_dvd _) (by rwa [Nat.zero_add])

/-! ### Restoring division (41_alu.md R113) -/

/-- The bit of the dividend that a turn brings down joins the remainder. -/
theorem shiftLeft_or_testBit (m i r : Nat) : (r <<< 1) ||| (m.testBit i).toNat = 2 * r + m / 2 ^ i % 2 := by
  rw [← Nat.shiftLeft_add_eq_or_of_lt (by simpa using Bool.toNat_lt _), Nat.toNat_testBit, Nat.shiftLeft_eq]
  omega

/-- Setting a bit of the quotient below all that it has. -/
theorem or_shiftLeft_of_dvd {q i : Nat} (h : 2 ^ (i + 1) ∣ q) : q ||| (1 <<< i) = q + 2 ^ i := by
  obtain ⟨c, rfl⟩ := h
  rw [Nat.one_shiftLeft, Nat.two_pow_add_eq_or_of_lt (Nat.pow_lt_pow_succ (by decide))]

/-- With `i` bits to go, the loop still divides the remainder followed by those bits. -/
theorem divideLoop_eq {m d : Nat} (i q r : Nat) (hq : 2 ^ i ∣ q) (hr : r < d) :
    divideLoop i m d q r = q + (r * 2 ^ i + m % 2 ^ i) / d := by
  induction i generalizing q r with
  | zero => simp [divideLoop, Nat.mod_one, Nat.div_eq_of_lt hr]
  | succ i ih =>
    have hbring : r * 2 ^ (i + 1) + m % 2 ^ (i + 1) = (2 * r + m / 2 ^ i % 2) * 2 ^ i + m % 2 ^ i := by
      rw [Nat.mod_pow_succ]
      ring
    have hq' : 2 ^ i ∣ q := dvd_trans (pow_dvd_pow 2 (Nat.le_succ i)) hq
    rw [divideLoop, shiftLeft_or_testBit, hbring]
    generalize hr' : 2 * r + m / 2 ^ i % 2 = r'
    split
    · have hsub : r' * 2 ^ i + m % 2 ^ i = (r' - d) * 2 ^ i + m % 2 ^ i + d * 2 ^ i := by
        obtain ⟨e, rfl⟩ := Nat.exists_eq_add_of_le ‹d ≤ r'›
        rw [Nat.add_sub_cancel_left]
        ring
      rw [or_shiftLeft_of_dvd hq, ih _ _ (Nat.dvd_add hq' dvd_rfl) (by omega), hsub, Nat.add_mul_div_left _ _ (by omega)]
      omega
    · exact ih q r' hq' (by omega)

/-- Eight turns divide a magnitude of eight bits. -/
theorem divideLoop_eight {m d : Nat} (hm : m < 256) (hd : 0 < d) : divideLoop 8 m d 0 0 = m / d := by
  rw [divideLoop_eq 8 0 0 (Nat.dvd_zero _) hd, Nat.zero_mul, Nat.zero_add, Nat.zero_add, Nat.mod_eq_of_lt (b := 2 ^ 8) hm]

/-- Truncating division divides the magnitudes, and negates the quotient when the signs differ. -/
theorem tdiv_eq_signed_natAbs_div (a b : Int) :
    Int.tdiv a b = if (a < 0) ≠ (b < 0) then -((a.natAbs / b.natAbs : Nat) : Int) else ((a.natAbs / b.natAbs : Nat) : Int) := by
  cases a with
  | ofNat m =>
    cases b with
    | ofNat n => rw [if_neg (by simp [(Int.natCast_nonneg _).not_gt])]; rfl
    | negSucc n => rw [if_pos (by simp)]; rfl
  | negSucc m =>
    cases b with
    | ofNat n => rw [if_pos (by simp)]; rfl
    | negSucc n => rw [if_neg (by simp)]; rfl

/-- Settles O60: outside the two open cases, the quotient of the magnitudes with the sign of truncating division. -/
theorem divideTruncatesTowardZero : Obligations.DivideTruncatesTowardZero := by
  intro a b ha hb hb'
  have hne : b ≠ 0 := Int.natAbs_pos.mp hb
  have hmagnitudes : ¬(256 ≤ a.natAbs ∨ 256 ≤ b.natAbs) := by omega
  rw [divide, if_neg hne, if_neg hmagnitudes, divideLoop_eight (Nat.lt_succ_of_le ha) hb, tdiv_eq_signed_natAbs_div]

/-! ### ADD and MUL (41_alu.md R115, R117, R118) -/

section

variable {s : State} {op : AluOp} {i : Instr}

/-- What ADD and MUL do, given the operation and the instruction, whose length is 3. -/
abbrev aluExec (op : AluOp) (i : Instr) (s : State) : Result :=
  aluApply op (s.operandAddr 1) (s.operandAddr 2) s fun s => .next (s.advance i)

theorem exec_add (s : State) : exec .add s = aluExec .add .add s := rfl

theorem exec_mul (s : State) : exec .mul s = aluExec .mul .mul s := rfl

/-- Both registers exist: the result, mod 256, goes to the first, `pc` advances, and nothing else changes. -/
theorem aluExec_of_lt (hi : i.length = 3) (hpc : s.pc.toNat + 2 < 256) (hb : (s.operand 2).toNat < 8) (ha : (s.operand 1).toNat < 8) :
    ∃ t, aluExec op i s = .next t ∧
      (t.reg (s.operand 1).toNat).toNat = op.compute (s.operandReg 1).toNat (s.operandReg 2).toNat % 256 ∧
      t.pc.toNat = s.pc.toNat + 3 ∧
      (∀ j, j ≠ (s.operand 1).toNat → t.reg j = s.reg j) ∧ (∀ a, t.mem.read a = s.mem.read a) ∧
      t.sp = s.sp ∧ t.ir = s.ir ∧ t.status = s.status ∧ t.fault = s.fault ∧ t.out = s.out := by
  refine ⟨s.aluDone op i, ?_, ?_, ?_, fun j hj => s.reg_setReg_other hj.symm _, fun _ => rfl, rfl, rfl, rfl, rfl, rfl⟩
  · rw [aluExec, aluApply, operandAddr_eq, operandAddr_eq, withNamedReg_of_lt hpc hb,
      withNamedReg_of_lt (Nat.lt_of_succ_lt hpc) ha, withRegWrite_of_lt ha]
  · rw [State.advance_reg, s.reg_setReg_same ha, BitVec.toNat_ofNat]
  · simp only [State.advance_pc, State.setReg_pc, hi, add_eq, BitVec.toNat_ofNat]
    omega

/-- The byte at `pc + 2` is read first. -/
theorem aluExec_of_pc_ge (hpc : 256 ≤ s.pc.toNat + 2) :
    aluExec op i s = raise s (.outOfBoundsAddress .memAddress (s.pc.toNat + 2)) := withNamedReg_of_ge hpc

theorem aluExec_of_second_index_ge (hpc : s.pc.toNat + 2 < 256) (hb : 8 ≤ (s.operand 2).toNat) :
    aluExec op i s = raise s (.outOfBoundsAddress .regIndex (s.operand 2).toNat) := withNamedReg_of_index_ge hpc hb

theorem aluExec_of_first_index_ge (hpc : s.pc.toNat + 2 < 256) (hb : (s.operand 2).toNat < 8) (ha : 8 ≤ (s.operand 1).toNat) :
    aluExec op i s = raise s (.outOfBoundsAddress .regIndex (s.operand 1).toNat) := by
  rw [aluExec, aluApply, operandAddr_eq, withNamedReg_of_lt hpc hb]
  exact withNamedReg_of_index_ge (Nat.lt_of_succ_lt hpc) ha

end

/-- Settles O34: ADD is the ALU instruction that computes the sum. -/
theorem addResultAndFaults : Obligations.AddResultAndFaults := by
  refine ⟨rfl, rfl, rfl, fun s => ?_⟩
  rw [exec_add]
  exact ⟨aluExec_of_lt rfl, aluExec_of_pc_ge, aluExec_of_second_index_ge, aluExec_of_first_index_ge⟩

/-- Settles O35: MUL is the ALU instruction that computes the product. -/
theorem mulResultAndFaults : Obligations.MulResultAndFaults := by
  refine ⟨rfl, rfl, rfl, fun s => ?_⟩
  rw [exec_mul]
  exact ⟨aluExec_of_lt rfl, aluExec_of_pc_ge, aluExec_of_second_index_ge, aluExec_of_first_index_ge⟩

end Sys2Proof.Machine
end

section
/-! PROOFS of the family 42_load_print_halt.md. LDI, PRN and HLT complete in `s.completed i`, the state whose `pc` is known
(`State.completed_pc_toNat`) and whose other fields are those of the handler's one effect. -/

namespace Sys2Proof.Machine

variable {s : State}

/-- LDI completes where its operand bytes are in memory and its register exists (42_load_print_halt.md R130). -/
theorem exec_ldi_of_lt (hpc : s.pc.toNat + 2 < 256) (hr : (s.operand 1).toNat < 8) : exec .ldi s = .next (s.completed .ldi) := by
  rw [exec, execLdi, withOperand_of_lt (Nat.lt_of_succ_lt hpc), withOperand_of_lt hpc, withRegWrite_of_lt hr]
  rfl

/-- PRN completes where its operand byte is in memory and its register exists (42_load_print_halt.md R131). -/
theorem exec_prn_of_lt (hpc : s.pc.toNat + 1 < 256) (hr : (s.operand 1).toNat < 8) : exec .prn s = .next (s.completed .prn) := by
  rw [exec, execPrn, withRegOperand_of_lt hpc hr]
  rfl

/-- HLT always completes (42_load_print_halt.md R132). -/
theorem exec_hlt (s : State) : exec .hlt s = .next (s.completed .hlt) := rfl

/-- A halted machine takes no step (40_dispatcher.md R90). -/
theorem step_ne_next_of_halted (hs : s.status = .halted) (t : State) : step s ≠ .next t := by
  intro h
  obtain ⟨hr, -⟩ := step_next h
  cases hs.symm.trans hr

/-- Settles O29: LDI completes, and its effect is one register write. -/
theorem ldiLoadsItsImmediate : Obligations.LdiLoadsItsImmediate := by
  intro s hpc hr
  have hreg : (s.completed .ldi).reg (s.operand 1).toNat = s.operand 2 := s.reg_setReg_same hr _
  have hpc' : (s.completed .ldi).pc.toNat = s.pc.toNat + 3 := State.completed_pc_toNat ⟨hpc, nofun, nofun⟩
  have hother : ∀ j, j ≠ (s.operand 1).toNat → (s.completed .ldi).reg j = s.reg j := fun _ hj => s.reg_setReg_other hj.symm _
  exact ⟨_, exec_ldi_of_lt hpc hr, hreg, hpc', hother, fun _ => rfl, rfl, rfl, rfl, rfl, rfl⟩

/-- Settles O31: PRN completes, and its effect is one output. -/
theorem prnEmitsTheRegister : Obligations.PrnEmitsTheRegister := by
  intro s hpc hr
  have hpc' : (s.completed .prn).pc.toNat = s.pc.toNat + 2 := State.completed_pc_toNat ⟨hpc, nofun, nofun⟩
  exact ⟨_, exec_prn_of_lt hpc hr, rfl, hpc', fun _ => rfl, fun _ => rfl, rfl, rfl, rfl, rfl⟩

/-- Settles O33: HLT completes in a HALTED state, from which there is no step. -/
theorem hltHalts : Obligations.HltHalts := by
  refine ⟨decodeOpcode_opcode .hlt, Instr_length_hlt, rfl, fun s hpc => ?_⟩
  have hpc' : (s.completed .hlt).pc.toNat = s.pc.toNat + 1 := State.completed_pc_toNat ⟨hpc, nofun, nofun⟩
  exact ⟨_, exec_hlt s, rfl, hpc', fun _ => rfl, fun _ => rfl, rfl, rfl, rfl, rfl, step_ne_next_of_halted rfl⟩

end Sys2Proof.Machine
end

section
/-! PROOFS of the family 43_stack.md. POP and PUSH complete in `s.completed i`, as LDI and PRN do; a PUSH followed by a POP is these two facts in a
row, and a chain of POPs and RETs raises `sp` at every step under the invariant's bound. -/

namespace Sys2Proof.Machine

variable {s t : State}

/-! ### One POP, one PUSH -/

/-- POP completes where the stack is not empty, its operand byte is in memory and its register exists (43_stack.md R140). -/
theorem exec_pop_of_ne (hsp : s.sp ≠ 0xF4#8) (hpc : s.pc.toNat + 1 < 256) (hr : (s.operand 1).toNat < 8) :
    exec .pop s = .next (s.completed .pop) := by
  rw [exec, execPop, withStackNotEmpty_of_ne hsp, withOperand_of_lt hpc, withMemRead_of_lt s.sp.isLt, withRegWrite_of_lt hr]
  rfl

/-- PUSH completes where the decremented `sp` lies beyond its own bytes and its register exists (43_stack.md R141). -/
theorem exec_push_of_le (hsp : s.pc.toNat + 2 ≤ s.sp.toNat - 1) (hr : (s.operand 1).toNat < 8) :
    exec .push s = .next (s.completed .push) := by
  have hlt := s.sp.isLt
  have hpushed : s.pushed.sp.toNat = s.sp.toNat - 1 := toNat_lowByte_pred (by omega)
  have hroom : ¬s.pushed.sp.toNat ≤ s.pushed.operandAddr 1 := by
    rw [hpushed, operandAddr_eq, Nat.not_le]
    exact hsp
  rw [exec, execPush, withSpDecremented_of_pos (by omega), if_neg hroom,
    withRegOperand_of_lt (s := s.pushed) (show s.pc.toNat + 1 < 256 by omega) hr, hpushed, withMemWrite_of_lt (by omega)]
  rfl

/-- Settles O36: POP completes, and its effects are one register write and the rise of `sp`. -/
theorem popTakesTheTopByte : Obligations.PopTakesTheTopByte := by
  intro s hsp hpc hr
  have hne : s.sp ≠ 0xF4#8 := fun he => Nat.ne_of_lt hsp (congrArg BitVec.toNat he)
  have hreg : (s.completed .pop).reg (s.operand 1).toNat = s.mem.read s.sp.toNat := s.reg_setReg_same hr _
  have hsp' : (s.completed .pop).sp.toNat = s.sp.toNat + 1 := toNat_lowByte_succ (s := s) (by omega)
  have hpc' : (s.completed .pop).pc.toNat = s.pc.toNat + 2 := State.completed_pc_toNat ⟨hpc, fun _ => hne, nofun⟩
  have hother : ∀ j, j ≠ (s.operand 1).toNat → (s.completed .pop).reg j = s.reg j := fun _ hj => s.reg_setReg_other hj.symm _
  exact ⟨_, exec_pop_of_ne hne hpc hr, hreg, hsp', hpc', hother, fun _ => rfl, rfl, rfl, rfl, rfl⟩

/-- Settles O38: PUSH completes, and its effects are the fall of `sp` and one byte written. -/
theorem pushStoresTheRegister : Obligations.PushStoresTheRegister := by
  intro s hm hsp hr
  have hlt := s.sp.isLt
  have hpos : 0 < s.sp.toNat := by omega
  have hsp' : (s.completed .push).sp.toNat = s.sp.toNat - 1 := toNat_lowByte_pred hpos
  have hpc' : (s.completed .push).pc.toNat = s.pc.toNat + 2 :=
    State.completed_pc_toNat ⟨by rw [Instr_length_push]; omega, nofun, fun _ => hpos⟩
  exact ⟨_, exec_push_of_le hsp hr, hsp', Memory.read_write_same hm _ _, fun _ ha => s.mem.read_write_other ha _, hpc',
    fun _ => rfl, rfl, rfl, rfl, rfl⟩

/-- Settles O24: POP and RET raise `StackUnderflow` at `sp = 0xF4`; elsewhere they raise another cause or complete with no record. -/
theorem emptyStackTestIsTheSentinelValue : Obligations.EmptyStackTestIsTheSentinelValue := by
  intro i s t hi hfault h
  have hpops : i = .pop ∨ i = .ret := by simpa using hi
  rcases hpops with rfl | rfl
  · rcases execPop_next h with ⟨hsp, rfl⟩ | ⟨hsp, -, rfl⟩ | ⟨hsp, -, -, rfl⟩ | ⟨hsp, -, -, rfl⟩
    iterate 3 · simp [hsp]
    · simp [hsp, hfault]
  · rcases execRet_next h with ⟨hsp, rfl⟩ | ⟨hsp, rfl⟩
    · simp [hsp]
    · simp [hsp, hfault]

/-! ### More than one step -/

/-- Settles O43: the POP stands where the PUSH left `pc`, untouched by the pushed byte, and reads that byte at the lowered `sp`. -/
theorem pushThenPopMovesTheValue : Obligations.PushThenPopMovesTheValue := by
  intro s hinv hr hop hreg hop' hreg' hroom
  have hsp : s.sp.toNat ≤ 244 := hinv.sp_le
  obtain ⟨t, hpush, htsp, htop, hbytes, htpc, htregs, -, htr, -, -⟩ :=
    pushStoresTheRegister (s.fetched 0x45#8) hinv.memory (show s.pc.toNat + 2 ≤ s.sp.toNat - 1 by omega) hreg
  dsimp only at htsp htop hbytes htpc htr
  have hstep : step s = .next t :=
    (step_of_decodeOpcode_eq_some hr (by omega) hop (decodeOpcode_opcode .push)).trans hpush
  have hopcode : t.mem.read t.pc.toNat = 0x46#8 := by rw [htpc, hbytes _ (by omega), hop']
  have hindex : t.mem.read (t.pc.toNat + 1) = s.mem.read (s.pc.toNat + 3) := by rw [htpc, hbytes _ (by omega)]
  have htpushed : t.mem.read t.sp.toNat = s.reg (s.mem.read (s.pc.toNat + 1)).toNat := by rw [htsp, htop]; rfl
  obtain ⟨u, hpop, hureg, husp, hupc, huregs, -, -, hur, -, -⟩ :=
    popTakesTheTopByte (t.fetched 0x46#8) (show t.sp.toNat < 244 by omega) (show t.pc.toNat + 1 < 256 by omega)
      (show (t.mem.read (t.pc.toNat + 1)).toNat < 8 by rwa [hindex])
  dsimp only at hureg husp hupc huregs hur
  rw [hindex] at hureg huregs
  have hstep' : step t = .next u :=
    (step_of_decodeOpcode_eq_some (htr.trans hr) (by omega) hopcode (decodeOpcode_opcode .pop)).trans hpop
  refine ⟨t, u, hstep, hstep', hur.trans (htr.trans hr), BitVec.eq_of_toNat_eq (by omega), by omega, hureg.trans htpushed, ?_⟩
  exact fun j hj => (huregs j hj).trans (htregs j)

/-- No instruction both pops and pushes. -/
theorem not_pushes_of_pops {i : Instr} (h : i.pops = true) : ¬i.pushes = true := by
  cases i with
  | pop | ret => nofun
  | ldi | prn | hlt | add | mul | push | call => cases h

/-- Under the invariant a POP or a RET that succeeds raises `sp` by 1 (10_state.md R31). -/
theorem sp_of_step_pop (hinv : Inv s) (hop : s.mem.read s.pc.toNat ∈ [0x46#8, 0x11#8]) (h : step s = .next t)
    (ht : t.status ≠ .faulted) : t.sp.toNat = s.sp.toNat + 1 := by
  obtain ⟨i, -, hi, hc, rfl⟩ := completed_of_step h ht
  have hpop : i.pops = true := (opcode_mem_pops_iff i).mp (hi ▸ hop)
  rw [State.setPc_sp, State.effect_sp, if_neg (not_pushes_of_pops hpop), if_pos hpop]
  exact ((hinv.fetched _).incrementSp_sp (hc.nonempty hpop)).2

/-- Settles O48, by induction on the length of the chain; the bound is the invariant's on the last `sp`. -/
theorem popChainIsBounded : Obligations.PopChainIsBounded := by
  intro n f hinv hchain
  have hlast : Inv (f n) ∧ (f n).sp.toNat = (f 0).sp.toNat + n := by
    induction n with
    | zero => exact ⟨hinv, rfl⟩
    | succ n ih =>
      obtain ⟨hop, hstep, hrun⟩ := hchain n (Nat.lt_succ_self n)
      obtain ⟨hinv', hbefore⟩ := ih fun k hk => hchain k (Nat.lt_succ_of_lt hk)
      have hsp := sp_of_step_pop hinv' hop hstep (by simp [hrun])
      exact ⟨stepKeepsInv _ _ hinv' hstep, by omega⟩
  obtain ⟨hinv', hsp⟩ := hlast
  have hle : (f n).sp.toNat ≤ 244 := hinv'.sp_le
  exact ⟨by omega, hsp⟩

end Sys2Proof.Machine
end

section
/-! PROOFS of the family 44_call_return.md. RET completes in `s.completed .ret`, as POP does. A CALL that passes its tests reads its operand byte
in `s.called`, where it is `s.callIndex`: below 8 the CALL completes, from 8 up it faults there. A RET after a CALL is these two facts in a row. -/

namespace Sys2Proof.Machine

variable {s t : State}

/-! ### One RET -/

/-- RET completes where the stack is not empty (44_call_return.md R150). -/
theorem exec_ret_of_ne (hsp : s.sp ≠ 0xF4#8) : exec .ret s = .next (s.completed .ret) := by
  rw [exec, execRet, withStackNotEmpty_of_ne hsp, withMemRead_of_lt s.sp.isLt]
  rfl

/-- The popped byte is an address of memory, so `pc` holds it unchanged. -/
theorem State.completed_ret_pc_toNat (s : State) : (s.completed .ret).pc.toNat = (s.mem.read s.sp.toNat).toNat := by
  have hlt := (s.mem.read s.sp.toNat).isLt
  simp only [State.setPc_pc, State.target, BitVec.toNat_ofNat]
  omega

/-- Settles O40: RET completes below the sentinel, and its effects are `pc` and the rise of `sp`; at the sentinel it faults first. -/
theorem retReturnsOrUnderflows : Obligations.RetReturnsOrUnderflows := by
  refine ⟨decodeOpcode_opcode .ret, Instr_length_ret, rfl, fun s => ⟨fun hsp => ?_, withStackNotEmpty_of_eq⟩⟩
  have hne : s.sp ≠ 0xF4#8 := fun he => Nat.ne_of_lt hsp (congrArg BitVec.toNat he)
  have hsp' : (s.completed .ret).sp.toNat = s.sp.toNat + 1 := toNat_lowByte_succ (s := s) (by omega)
  exact ⟨_, exec_ret_of_ne hne, s.completed_ret_pc_toNat, hsp', fun _ => rfl, fun _ => rfl, rfl, rfl, rfl, rfl⟩

/-! ### One CALL -/

/-- The three tests a CALL makes before its stack write (44_call_return.md R151). -/
structure State.CallPasses (s : State) : Prop where
  positive : 0 < s.sp.toNat
  ne_pc : s.sp.toNat - 1 ≠ s.pc.toNat
  returnAddr_lt : s.pc.toNat + 2 < 256

namespace State.CallPasses

/-- A CALL that passes its tests has its stack write made when it reads its operand byte (70_reset_and_hazards.md R197). -/
theorem exec_call (h : s.CallPasses) :
    exec .call s = withRegOperand s.called 1 fun target => .next (s.called.setPc target.toNat) := by
  have hpushed : s.pushed.sp.toNat = s.sp.toNat - 1 := toNat_lowByte_pred h.positive
  have hne : ¬s.pushed.sp.toNat = s.pushed.pc.toNat := hpushed ▸ h.ne_pc
  have hret : ¬Config.memSize ≤ s.pushed.returnAddr := Nat.not_le.mpr h.returnAddr_lt
  rw [exec, execCall, withSpDecremented_of_pos h.positive, if_neg hne, if_neg hret, withMemWrite_of_lt s.pushed.sp.isLt, hpushed]
  rfl

/-- The byte that the stack write leaves at the new `sp`. -/
theorem read_top (h : s.CallPasses) (hm : s.mem.wf) : (s.called.mem.read (s.sp.toNat - 1)).toNat = s.pc.toNat + 2 := by
  rw [Memory.read_write_same hm]
  exact Nat.mod_eq_of_lt h.returnAddr_lt

/-- The operand byte after the stack write: the return address if the write fell on it, the byte that was there otherwise. -/
theorem read_operand (h : s.CallPasses) (hm : s.mem.wf) : (s.called.operand 1).toNat = s.callIndex := by
  by_cases hown : s.sp.toNat - 1 = s.pc.toNat + 1
  · rw [State.callIndex, if_pos hown, ← h.read_top hm, hown]
  · rw [State.callIndex, if_neg hown]
    exact congrArg BitVec.toNat (s.mem.read_write_other (Ne.symm hown) _)

/-- CALL completes where its register exists. -/
theorem exec_call_of_lt (h : s.CallPasses) (hm : s.mem.wf) (hi : s.callIndex < 8) : exec .call s = .next (s.completed .call) := by
  have hoperand : s.called.pc.toNat + 1 < 256 := Nat.lt_of_succ_lt h.returnAddr_lt
  rw [h.exec_call, withRegOperand_of_lt hoperand (by rwa [h.read_operand hm])]
  rfl

/-- CALL faults after its stack write where its register does not exist (60_exceptions.md R168). -/
theorem exec_call_of_ge (h : s.CallPasses) (hm : s.mem.wf) (hi : 8 ≤ s.callIndex) :
    exec .call s = raise s.called (.outOfBoundsAddress .regIndex s.callIndex) := by
  have hoperand : s.called.pc.toNat + 1 < 256 := Nat.lt_of_succ_lt h.returnAddr_lt
  rw [h.exec_call, withRegOperand_of_index_ge hoperand (by rwa [h.read_operand hm]), h.read_operand hm]

/-- CALL leaves `pc` at the value of its register. -/
theorem completed_pc_toNat (h : s.CallPasses) (hm : s.mem.wf) : (s.completed .call).pc.toNat = (s.reg s.callIndex).toNat := by
  have hc : s.Completes .call := ⟨h.returnAddr_lt.le, nofun, fun _ => h.positive⟩
  rw [State.completed_pc_toNat hc, ← h.read_operand hm]
  rfl

end State.CallPasses

/-- Settles O41: CALL completes, and its effects are the fall of `sp`, one byte written and `pc`. -/
theorem callPushesAndJumps : Obligations.CallPushesAndJumps := by
  intro s hm hsp hne hpc hi
  have hpos : 0 < s.sp.toNat := Nat.pos_of_ne_zero fun hz => hsp (BitVec.eq_of_toNat_eq hz)
  have h : s.CallPasses := ⟨hpos, hne, hpc⟩
  exact ⟨_, h.exec_call_of_lt hm hi, toNat_lowByte_pred hpos, h.read_top hm, fun _ ha => s.mem.read_write_other ha _,
    h.completed_pc_toNat hm, fun _ => rfl, rfl, rfl, rfl, rfl⟩

/-! ### A CALL as a step -/

/-- A CALL step that does not fault passed its tests and completed. -/
theorem completed_of_step_call (hop : s.mem.read s.pc.toNat = 0x50#8) (h : step s = .next t) (ht : t.status ≠ .faulted) :
    s.CallPasses ∧ t = (s.fetched 0x50#8).completed .call := by
  obtain ⟨hr, -⟩ := step_next h
  obtain ⟨-, hpc, -⟩ := completed_of_step h ht
  rw [step_of_decodeOpcode_eq_some hr hpc hop (decodeOpcode_opcode .call)] at h
  rcases execCall_next h with ⟨-, rfl⟩ | ⟨-, -, rfl⟩ | ⟨-, -, -, rfl⟩ | ⟨-, -, -, -, rfl⟩ | ⟨hpos, hne, hret, -, rfl⟩
  iterate 4 · exact absurd rfl ht
  exact ⟨⟨hpos, hne, hret⟩, rfl⟩

/-- Settles O44: the CALL leaves `p + 2` at an `sp` below the sentinel, where the RET finds it. -/
theorem returnGoesToAfterTheCall : Obligations.ReturnGoesToAfterTheCall := by
  intro s t r hinv hop hcall htr hr hpc hret hsp htop
  obtain ⟨hpass, rfl⟩ := completed_of_step_call hop hcall (by simp [htr])
  have htsp : r.sp.toNat = s.sp.toNat - 1 := hsp ▸ toNat_lowByte_pred hpass.positive
  have hpushed : (r.mem.read r.sp.toNat).toNat = s.pc.toNat + 2 := by
    rw [hsp, htop, ← hsp, htsp]
    exact hpass.read_top hinv.memory
  have hle : s.sp.toNat ≤ 244 := hinv.sp_le
  have hpos := hpass.positive
  obtain ⟨-, -, -, hexec⟩ := retReturnsOrUnderflows
  obtain ⟨u, hu, hupc, husp, -, -, -, hur, -, -⟩ := (hexec (r.fetched 0x11#8)).1 (show r.sp.toNat < 244 by omega)
  have hstep : step r = .next u := (step_of_decodeOpcode_eq_some hr hpc hret (decodeOpcode_opcode .ret)).trans hu
  dsimp only at hupc husp hur
  exact ⟨u, hstep, hur.trans hr, hupc.trans hpushed, BitVec.eq_of_toNat_eq (by omega)⟩

/-- Settles O46: the index is the return address, which names a register exactly up to `pc = 5`. -/
theorem callOverItsOwnOperand : Obligations.CallOverItsOwnOperand := by
  intro s hm hr hpc hop hsp
  have htop : s.sp.toNat - 1 = s.pc.toNat + 1 := by omega
  have h : (s.fetched 0x50#8).CallPasses :=
    ⟨show 0 < s.sp.toNat by omega, show s.sp.toNat - 1 ≠ s.pc.toNat by omega, hpc⟩
  have hi : (s.fetched 0x50#8).callIndex = s.pc.toNat + 2 := if_pos htop
  have hstep := step_of_decodeOpcode_eq_some hr (by omega) hop (decodeOpcode_opcode .call)
  have hsp' : (s.fetched 0x50#8).called.sp.toNat = s.pc.toNat + 1 := (toNat_lowByte_pred h.positive).trans htop
  have hread : ((s.fetched 0x50#8).called.mem.read (s.pc.toNat + 1)).toNat = s.pc.toNat + 2 := htop ▸ h.read_top hm
  rcases Nat.lt_or_ge s.pc.toNat 6 with hlt | hge
  · refine ⟨_, hstep.trans (h.exec_call_of_lt hm (by omega)), hsp', hread, fun _ => by omega, fun _ => ⟨hr, ?_⟩⟩
    rw [h.completed_pc_toNat hm, hi]
    rfl
  · refine ⟨_, hstep.trans (h.exec_call_of_ge hm (by omega)), hsp', hread, fun _ => ⟨rfl, rfl, ?_⟩, fun _ => by omega⟩
    rw [State.faultedBy_fault, hi]

end Sys2Proof.Machine
end

section
/-! PROOFS of the family 60_exceptions.md. The overflow tests of PUSH and CALL have one shape (`OverflowsExactlyWhen`). That output is never read
back is an equation for each operation: run after earlier output, it answers the same state with that output put first. -/

namespace Sys2Proof.Machine

variable {s t : State}

/-! ### The stack overflow of PUSH and CALL (60_exceptions.md R164) -/

/-- A push from `s` that leaves `t` raises `StackOverflow`, with `sp` decremented, when its test holds, and never when it does not. -/
def OverflowsExactlyWhen (test : Prop) (s t : State) : Prop :=
  (test ∧ t = s.pushed.faultedBy (.stackOverflow s.pushed.sp s.pc)) ∨
    (¬test ∧ ∀ x p q, t.fault ≠ some ⟨.stackOverflow x p, q⟩)

namespace OverflowsExactlyWhen

variable {test : Prop}

theorem exists_record_iff (h : OverflowsExactlyWhen test s t) : (∃ x p q, t.fault = some ⟨.stackOverflow x p, q⟩) ↔ test := by
  rcases h with ⟨htest, rfl⟩ | ⟨htest, hne⟩
  · exact ⟨fun _ => htest, fun _ => ⟨_, _, _, rfl⟩⟩
  · exact ⟨fun ⟨x, p, q, hrec⟩ => absurd hrec (hne x p q), fun hyes => absurd hyes htest⟩

theorem of_record {x : Byte} {p q : PcWord} (h : OverflowsExactlyWhen test s t) (hpos : 0 < s.sp.toNat)
    (hrec : t.fault = some ⟨.stackOverflow x p, q⟩) :
    t.sp.toNat = s.sp.toNat - 1 ∧ x = t.sp ∧ p = s.pc ∧ t.status = .faulted := by
  rcases h with ⟨-, rfl⟩ | ⟨-, hne⟩
  · cases hrec
    exact ⟨toNat_lowByte_pred hpos, rfl, rfl, rfl⟩
  · exact absurd hrec (hne x p q)

end OverflowsExactlyWhen

theorem exec_push_overflows (hfault : s.fault = none) (hpos : 0 < s.sp.toNat) (h : exec .push s = .next t) :
    OverflowsExactlyWhen (s.sp.toNat - 1 ≤ s.pc.toNat + 1) s t := by
  rcases execPush_next h with ⟨hz, -⟩ | ⟨-, htest, rfl⟩ | ⟨htest, -, rfl⟩ | ⟨htest, -, rfl⟩
  · exact absurd hz hpos.ne'
  · exact .inl ⟨htest, rfl⟩
  · exact .inr ⟨Nat.not_le.mpr htest, by simp⟩
  · exact .inr ⟨Nat.not_le.mpr htest, by simp [hfault]⟩

theorem exec_call_overflows (hfault : s.fault = none) (hpos : 0 < s.sp.toNat) (h : exec .call s = .next t) :
    OverflowsExactlyWhen (s.sp.toNat - 1 = s.pc.toNat) s t := by
  rcases execCall_next h with ⟨hz, -⟩ | ⟨-, htest, rfl⟩ | ⟨-, htest, -, rfl⟩ | ⟨-, htest, -, -, rfl⟩ | ⟨-, htest, -, -, rfl⟩
  · exact absurd hz hpos.ne'
  · exact .inl ⟨htest, rfl⟩
  iterate 2 · exact .inr ⟨htest, by simp⟩
  · exact .inr ⟨htest, by simp [hfault]⟩

/-- Settles O25: each test decides between the overflow, in the state with `sp` decremented, and no overflow at all. -/
theorem stackOverflowTestsOfPushAndCall : Obligations.StackOverflowTestsOfPushAndCall := by
  refine ⟨fun _ _ => rfl, fun s t hfault hpos => ⟨fun h => ?_, fun h => ?_, fun h x p q hrec => ?_⟩⟩
  · exact (exec_push_overflows hfault hpos h).exists_record_iff
  · exact (exec_call_overflows hfault hpos h).exists_record_iff
  · rcases h with h | h
    · exact (exec_push_overflows hfault hpos h).of_record hpos hrec
    · exact (exec_call_overflows hfault hpos h).of_record hpos hrec

/-! ### The exit status (60_exceptions.md R170) -/

theorem State.exitStatus_eq_zero_iff (s : State) : s.exitStatus = some .zero ↔ s.status = .halted := by
  cases hs : s.status <;> simp [State.exitStatus, hs]

theorem State.exitStatus_eq_nonZero_iff (s : State) : s.exitStatus = some .nonZero ↔ s.status = .faulted := by
  cases hs : s.status <;> simp [State.exitStatus, hs]

theorem State.exitStatus_eq_none_iff (s : State) : s.exitStatus = none ↔ s.status = .running := by
  cases hs : s.status <;> simp [State.exitStatus, hs]

/-- Settles O55: the exit status is the status, and under the invariant FAULTED is having a record. -/
theorem exitStatusFollowsStatus : Obligations.ExitStatusFollowsStatus := fun s hinv =>
  ⟨s.exitStatus_eq_zero_iff, s.exitStatus_eq_nonZero_iff.trans hinv.fault_iff.symm, s.exitStatus_eq_none_iff⟩

/-! ### Output is never read back (60_exceptions.md R176) -/

/-- The state `s`, had the values `o` been output before its own. -/
def State.afterOut (s : State) (o : List Byte) : State := { s with out := o ++ s.out }

/-- The answer `r`, had the values `o` been output before its own. -/
def afterOut (o : List Byte) : Result → Result
  | .next t => .next (t.afterOut o)
  | .fault f => .fault f
  | .refused f => .refused f

section

variable {o : List Byte} {a : Nat} {i v : Byte}

/-- Any output sequence is one put before none. -/
theorem State.afterOut_of_out_nil (s : State) (o : List Byte) : State.afterOut { s with out := [] } o = { s with out := o } := by
  simp [State.afterOut]

theorem afterOut_eq_next {r : Result} (h : afterOut o r = .next t) : ∃ t₀, r = .next t₀ ∧ t = t₀.afterOut o := by
  cases r with
  | next t₀ => cases h; exact ⟨t₀, rfl, rfl⟩
  | fault | refused => cases h

theorem ite_afterOut {c : Prop} [Decidable c] {r₁ r₂ r₁' r₂' : Result} (h₁ : r₁' = afterOut o r₁) (h₂ : r₂' = afterOut o r₂) :
    (if c then r₁' else r₂') = afterOut o (if c then r₁ else r₂) := by
  rw [h₁, h₂, apply_ite (afterOut o)]

theorem withMemRead_afterOut {k k' : Byte → Result} (h : ∀ b, k' b = afterOut o (k b)) :
    withMemRead (s.afterOut o) a k' = afterOut o (withMemRead s a k) := ite_afterOut (h _) rfl

theorem withMemWrite_afterOut {k : State → Result} (h : ∀ t : State, k (t.afterOut o) = afterOut o (k t)) :
    withMemWrite (s.afterOut o) a v k = afterOut o (withMemWrite s a v k) :=
  ite_afterOut (h { s with mem := s.mem.write a v }) rfl

theorem withRegRead_afterOut {k k' : Byte → Result} (h : ∀ b, k' b = afterOut o (k b)) :
    withRegRead (s.afterOut o) i k' = afterOut o (withRegRead s i k) := ite_afterOut (h _) rfl

theorem withRegWrite_afterOut {k : State → Result} (h : ∀ t : State, k (t.afterOut o) = afterOut o (k t)) :
    withRegWrite (s.afterOut o) i v k = afterOut o (withRegWrite s i v k) :=
  ite_afterOut (h (s.setReg i.toNat v)) rfl

theorem withNamedReg_afterOut {k k' : Byte → Byte → Result} (h : ∀ b c, k' b c = afterOut o (k b c)) :
    withNamedReg (s.afterOut o) a k' = afterOut o (withNamedReg s a k) :=
  withMemRead_afterOut fun _ => withRegRead_afterOut fun _ => h _ _

theorem withStackNotEmpty_afterOut {r r' : Result} (h : r' = afterOut o r) :
    withStackNotEmpty (s.afterOut o) r' = afterOut o (withStackNotEmpty s r) := ite_afterOut rfl h

theorem withSpDecremented_afterOut {k : State → Result} (h : ∀ t : State, k (t.afterOut o) = afterOut o (k t)) :
    withSpDecremented (s.afterOut o) k = afterOut o (withSpDecremented s k) := by
  rcases Nat.eq_zero_or_pos s.sp.toNat with hz | hp
  · rw [withSpDecremented_of_zero hz, withSpDecremented_of_zero (s := s.afterOut o) hz]
    rfl
  · rw [withSpDecremented_of_pos hp, withSpDecremented_of_pos (s := s.afterOut o) hp]
    exact h s.pushed

theorem lookup_afterOut {f : Instr → State → Result} (h : ∀ j, f j (s.afterOut o) = afterOut o (f j s)) :
    lookup (s.afterOut o) f = afterOut o (lookup s f) := by
  cases hop : decodeOpcode s.ir with
  | none =>
    rw [lookup_of_none hop, lookup_of_none (s := s.afterOut o) hop]
    rfl
  | some j =>
    rw [lookup_of_some hop, lookup_of_some (s := s.afterOut o) hop]
    exact h j

theorem whenRunning_afterOut {r r' : Result} (h : r' = afterOut o r) :
    whenRunning (s.afterOut o) r' = afterOut o (whenRunning s r) := ite_afterOut h (ite_afterOut rfl rfl)

/-- `out` has no part in the ALU's operation (41_alu.md R115). -/
theorem aluApply_afterOut {op : AluOp} {aA bA : Nat} {k : State → Result} (h : ∀ t : State, k (t.afterOut o) = afterOut o (k t)) :
    aluApply op aA bA (s.afterOut o) k = afterOut o (aluApply op aA bA s k) :=
  withNamedReg_afterOut fun _ _ => withNamedReg_afterOut fun _ _ => withRegWrite_afterOut h

/-- An output is appended to whatever is there (10_state.md R36). -/
theorem State.output_afterOut (s : State) (o : List Byte) (v : Byte) : (s.afterOut o).output v = (s.output v).afterOut o := by
  simp [State.output, State.afterOut]

/-- No handler reads `out`. -/
theorem exec_afterOut (i : Instr) (s : State) (o : List Byte) : exec i (s.afterOut o) = afterOut o (exec i s) := by
  cases i with
  | ldi => exact withMemRead_afterOut fun _ => withMemRead_afterOut fun _ => withRegWrite_afterOut fun _ => rfl
  | prn =>
    unfold exec execPrn withRegOperand
    refine withNamedReg_afterOut fun _ v => ?_
    simp only [s.output_afterOut]
    rfl
  | hlt => rfl
  | add | mul => exact aluApply_afterOut fun _ => rfl
  | pop =>
    exact withStackNotEmpty_afterOut
      (withMemRead_afterOut fun _ => withMemRead_afterOut fun _ => withRegWrite_afterOut fun _ => rfl)
  | push =>
    unfold exec execPush withRegOperand
    exact withSpDecremented_afterOut fun _ =>
      ite_afterOut rfl (withNamedReg_afterOut fun _ _ => withMemWrite_afterOut fun _ => rfl)
  | ret => exact withStackNotEmpty_afterOut (withMemRead_afterOut fun _ => rfl)
  | call =>
    unfold exec execCall withRegOperand
    exact withSpDecremented_afterOut fun _ =>
      ite_afterOut rfl (ite_afterOut rfl (withMemWrite_afterOut fun _ => withNamedReg_afterOut fun _ _ => rfl))

/-- No step reads `out`. -/
theorem step_afterOut (s : State) (o : List Byte) : step (s.afterOut o) = afterOut o (step s) :=
  whenRunning_afterOut <| withMemRead_afterOut fun b =>
    lookup_afterOut (s := s.fetched b) fun j => exec_afterOut j (s.fetched b) o

end

/-- Settles O50: both steps are the step with no earlier output, with `s.out` and with `o` put before what it emits. -/
theorem outputIsNeverReadBack : Obligations.OutputIsNeverReadBack := by
  intro s t o h
  have hstep : ∀ o, step { s with out := o } = afterOut o (step { s with out := [] }) := fun o => by
    rw [← s.afterOut_of_out_nil o, step_afterOut]
  obtain ⟨t₀, ht₀, rfl⟩ := afterOut_eq_next ((hstep s.out).symm.trans h)
  exact ⟨t₀.out, rfl, by rw [hstep o, ht₀]; rfl⟩

end Sys2Proof.Machine
end

section
/-! PROOFS of the family 70_reset_and_hazards.md: a push onto the byte that the next step fetches. -/

namespace Sys2Proof.Machine

/-- Settles O45: `pc` and the decremented `sp` meet at the byte just pushed, so the next step fetches that byte. -/
theorem pushOntoTheNextOpcode : Obligations.PushOntoTheNextOpcode := by
  intro s hm hr hop hreg hsp
  have hlt := s.sp.isLt
  obtain ⟨t, hpush, htsp, htop, -, htpc, -, -, htr, -, -⟩ :=
    pushStoresTheRegister (s.fetched 0x45#8) hm (show s.pc.toNat + 2 ≤ s.sp.toNat - 1 by omega) hreg
  dsimp only at htsp htop htpc htr
  have hstep : step s = .next t :=
    (step_of_decodeOpcode_eq_some hr (by omega) hop (decodeOpcode_opcode .push)).trans hpush
  have hmeet : t.pc.toNat = s.sp.toNat - 1 := by omega
  have hpushed : t.mem.read t.pc.toNat = s.reg (s.mem.read (s.pc.toNat + 1)).toNat := by
    rw [hmeet]
    exact htop
  refine ⟨t, hstep, htpc, by omega, htr.trans hr, fun i hi => ?_⟩
  exact step_of_decodeOpcode_eq_some (htr.trans hr) (by omega) hpushed hi

end Sys2Proof.Machine
end

section
/-! PROOFS of the statements of no one family: when there is a step, the faults of LDI, PRN, POP, PUSH and CALL in the order checked, what a
faulting step keeps, the output, how a run ends, the loops of `subtract` and `multiply`, and the state at reset and after loading. -/

namespace Sys2Proof.Machine

variable {s t u : State} {i : Instr}

/-! ### When there is a step (40_dispatcher.md R90, R91) -/

theorem step_of_halted (hs : s.status = .halted) : step s = .fault .noStepWhenHalted := by
  simp [step, whenRunning, State.runningFlag, hs]

theorem step_of_faulted (hs : s.status = .faulted) : step s = .fault .noStepWhenFaulted := by
  simp [step, whenRunning, State.runningFlag, hs]

/-- A RUNNING machine takes a step whatever `pc` is and whatever it fetches. -/
theorem step_answers_of_running (hr : s.status = .running) : Answers (step s) := by
  rcases Nat.lt_or_ge s.pc.toNat 256 with hpc | hpc
  · cases hop : decodeOpcode (s.mem.read s.pc.toNat) with
    | none => exact step_of_decodeOpcode_eq_none hr hpc rfl hop ▸ answers_raise _ _
    | some i => exact step_of_decodeOpcode_eq_some hr hpc rfl hop ▸ exec_answers i _
  · exact step_of_pc_ge hr hpc ▸ answers_raise _ _

/-- Settles O13: no handler is refused, so a RUNNING machine always takes its step. -/
theorem stepExactlyWhileRunning : Obligations.StepExactlyWhileRunning := fun _ =>
  ⟨⟨fun ⟨_, h⟩ => (step_next h).1, step_answers_of_running⟩, step_of_halted, step_of_faulted⟩

/-- Settles O12, by the fetch's bounds check. -/
theorem fetchAboveMemoryFaults : Obligations.FetchAboveMemoryFaults := fun _ hr hpc => step_of_pc_ge hr hpc

/-! ### The faults of each instruction, in the order checked -/

/-- Settles O30: the two operand bytes are read in order, then the register is written. -/
theorem ldiFaultsInOrder : Obligations.LdiFaultsInOrder := by
  refine fun s => ⟨fun h => ?_, fun h1 h2 => ?_, fun h hr => ?_⟩
  · rw [exec, execLdi, withOperand_of_ge h]
  · rw [exec, execLdi, withOperand_of_lt h1, withOperand_of_ge h2]
  · rw [exec, execLdi, withOperand_of_lt (Nat.lt_of_succ_lt h), withOperand_of_lt h, withRegWrite_of_ge hr]

/-- Settles O32: the operand byte is read, then the register it names. -/
theorem prnFaultsInOrder : Obligations.PrnFaultsInOrder := fun _ =>
  ⟨fun h => withRegOperand_of_ge h, fun h hr => withRegOperand_of_index_ge h hr⟩

/-- Settles O37: the stack test comes first, then the operand byte is read, and last the register is written. -/
theorem popFaultsInOrder : Obligations.PopFaultsInOrder := by
  refine fun s => ⟨fun hsp => withStackNotEmpty_of_eq hsp, fun hsp h => ?_, fun hsp h hr => ?_⟩
  · rw [exec, execPop, withStackNotEmpty_of_ne hsp, withOperand_of_ge h]
  · rw [exec, execPop, withStackNotEmpty_of_ne hsp, withOperand_of_lt h, withMemRead_of_lt s.sp.isLt, withRegWrite_of_ge hr]

/-- The decremented `sp` as a difference of bytes. -/
theorem lowByte_pred_eq_sub (h : 0 < s.sp.toNat) : lowByte (s.sp.toNat - 1) = s.sp - 1#8 := by
  apply BitVec.eq_of_toNat_eq
  have hlt := s.sp.isLt
  rw [toNat_lowByte_pred h, BitVec.toNat_sub]
  simp only [BitVec.toNat_ofNat]
  omega

theorem sp_pos_of_ne (h : s.sp ≠ 0#8) : 0 < s.sp.toNat := Nat.pos_of_ne_zero fun hz => h (BitVec.eq_of_toNat_eq hz)

/-- PUSH overflows where the decremented `sp` falls on its own bytes or below them (43_stack.md R141). -/
theorem exec_push_of_sp_le (hpos : 0 < s.sp.toNat) (hle : s.sp.toNat - 1 ≤ s.pc.toNat + 1) :
    exec .push s = raise s.pushed (.stackOverflow s.pushed.sp s.pc) := by
  have htest : s.pushed.sp.toNat ≤ s.pushed.operandAddr 1 := by rwa [toNat_lowByte_pred hpos]
  rw [exec, execPush, withSpDecremented_of_pos hpos, if_pos htest]

/-- PUSH that passes its test faults where its register does not exist, with `sp` decremented (60_exceptions.md R168). -/
theorem exec_push_of_index_ge (hsp : s.pc.toNat + 2 ≤ s.sp.toNat - 1) (hr : 8 ≤ (s.operand 1).toNat) :
    exec .push s = raise s.pushed (.outOfBoundsAddress .regIndex (s.operand 1).toNat) := by
  have hlt := s.sp.isLt
  have hpos : 0 < s.sp.toNat := by omega
  have htest : ¬s.pushed.sp.toNat ≤ s.pushed.operandAddr 1 := by
    rw [toNat_lowByte_pred hpos, operandAddr_eq, Nat.not_le]
    exact hsp
  have hoperand : s.pushed.pc.toNat + 1 < 256 := show s.pc.toNat + 1 < 256 by omega
  rw [exec, execPush, withSpDecremented_of_pos hpos, if_neg htest, withRegOperand_of_index_ge hoperand hr]

/-- Settles O39: `sp` is decremented first, the overflow test follows, and last the register is read. -/
theorem pushFaultsInOrder : Obligations.PushFaultsInOrder := by
  refine fun s => ⟨fun hz => ?_, fun hne hle => ?_, fun hsp hr => ?_⟩
  · rw [exec, execPush, withSpDecremented_of_zero (congrArg BitVec.toNat hz)]
  · rw [← lowByte_pred_eq_sub (sp_pos_of_ne hne)]
    exact exec_push_of_sp_le (sp_pos_of_ne hne) hle
  · rw [← lowByte_pred_eq_sub (by omega)]
    exact exec_push_of_index_ge hsp hr

/-- CALL overflows where the decremented `sp` is its own address (44_call_return.md R151). -/
theorem exec_call_of_sp_eq (hpos : 0 < s.sp.toNat) (heq : s.sp.toNat - 1 = s.pc.toNat) :
    exec .call s = raise s.pushed (.stackOverflow s.pushed.sp s.pc) := by
  have htest : s.pushed.sp.toNat = s.pushed.pc.toNat := (toNat_lowByte_pred hpos).trans heq
  rw [exec, execCall, withSpDecremented_of_pos hpos, if_pos htest]

/-- CALL checks its return address before the stack write (92_eei_decisions.md D5). -/
theorem exec_call_of_returnAddr_ge (hpos : 0 < s.sp.toNat) (hne : s.sp.toNat - 1 ≠ s.pc.toNat) (hret : 256 ≤ s.pc.toNat + 2) :
    exec .call s = raise s.pushed (.outOfBoundsAddress .returnAddress (s.pc.toNat + 2)) := by
  have htest : ¬s.pushed.sp.toNat = s.pushed.pc.toNat := by rwa [toNat_lowByte_pred hpos]
  have haddr : Config.memSize ≤ s.pushed.returnAddr := hret
  rw [exec, execCall, withSpDecremented_of_pos hpos, if_neg htest, if_pos haddr, returnAddr_eq]

/-- Settles O42: two tests follow the decrement of `sp`; once they pass, only the index that CALL reads after its stack write can fault. -/
theorem callFaultsInOrder : Obligations.CallFaultsInOrder := by
  refine fun s hm => ⟨fun hz => ?_, fun hsp heq => ?_, fun hsp hne hret => ?_, fun hsp hne hret hi => ?_⟩
  · rw [exec, execCall, withSpDecremented_of_zero (congrArg BitVec.toNat hz)]
  · rw [← lowByte_pred_eq_sub (sp_pos_of_ne hsp)]
    exact exec_call_of_sp_eq (sp_pos_of_ne hsp) heq
  · rw [← lowByte_pred_eq_sub (sp_pos_of_ne hsp)]
    exact exec_call_of_returnAddr_ge (sp_pos_of_ne hsp) hne hret
  · have hpass : s.CallPasses := ⟨sp_pos_of_ne hsp, hne, hret⟩
    rw [← lowByte_pred_eq_sub hpass.positive]
    exact hpass.exec_call_of_ge hm hi

/-! ### What a faulting step keeps (60_exceptions.md R168) -/

theorem State.RaisesFrom.out_eq (h : s.RaisesFrom i u) : u.out = s.out := by cases h <;> rfl

theorem State.RaisesFrom.mem_eq_of_not_pushes (h : s.RaisesFrom i u) (hi : ¬i.pushes = true) : u.mem = s.mem := by
  cases h with
  | unchanged => rfl
  | pushed hi' => exact absurd hi' hi
  | called => exact absurd rfl hi

/-- A PUSH that faults: nothing changed at `sp = 0`, otherwise `sp` decremented. -/
theorem exec_push_faulted (hs : s.status ≠ .faulted) (h : exec .push s = .next t) (ht : t.status = .faulted) :
    t = s.faultedBy (.subtractUnderflow 0 1) ∨
      0 < s.sp.toNat ∧ ∃ c, t = s.pushed.faultedBy c ∧
        (c = .stackOverflow s.pushed.sp s.pc ∨ ∃ r, c = .outOfBoundsAddress .regIndex r) := by
  rcases execPush_next h with ⟨-, rfl⟩ | ⟨hpos, -, rfl⟩ | ⟨htest, -, rfl⟩ | ⟨-, -, rfl⟩
  · exact .inl rfl
  · exact .inr ⟨hpos, _, rfl, .inl rfl⟩
  · exact .inr ⟨by omega, _, rfl, .inr ⟨_, rfl⟩⟩
  · exact absurd ht hs

/-- A CALL that faults: nothing changed at `sp = 0`, `sp` decremented by the two tests, the return address written too after them. -/
theorem exec_call_faulted (hs : s.status ≠ .faulted) (h : exec .call s = .next t) (ht : t.status = .faulted) :
    t = s.faultedBy (.subtractUnderflow 0 1) ∨
      0 < s.sp.toNat ∧
        ((∃ c, t = s.pushed.faultedBy c ∧
            (c = .stackOverflow s.pushed.sp s.pc ∨ c = .outOfBoundsAddress .returnAddress (s.pc.toNat + 2))) ∨
          ∃ r, t = s.called.faultedBy (.outOfBoundsAddress .regIndex r)) := by
  rcases execCall_next h with ⟨-, rfl⟩ | ⟨hpos, -, rfl⟩ | ⟨hpos, -, -, rfl⟩ | ⟨hpos, -, -, -, rfl⟩ | ⟨-, -, -, -, rfl⟩
  · exact .inl rfl
  · exact .inr ⟨hpos, .inl ⟨_, rfl, .inl rfl⟩⟩
  · exact .inr ⟨hpos, .inl ⟨_, rfl, .inr rfl⟩⟩
  · exact .inr ⟨hpos, .inr ⟨_, rfl⟩⟩
  · exact absurd ht hs

/-- Settles O23: a fault in the fetch, the lookup or a handler that pushes nothing leaves `sp` and memory too; PUSH and CALL leave what their
own faults leave. -/
theorem faultKeepsOnlyTheListedEffects : Obligations.FaultKeepsOnlyTheListedEffects := by
  intro s t h ht
  obtain ⟨hr, hout⟩ := stepOutcome_of_next h
  cases hout with
  | noHandler b c hop =>
    refine ⟨c, rfl, rfl, rfl, rfl, .inl ⟨rfl, rfl, fun hpc hpush => ?_⟩⟩
    simp only [List.mem_cons, List.not_mem_nil, or_false] at hpush
    exact absurd hpush (not_or.mpr ⟨hop hpc .push, hop hpc .call⟩)
  | @raised i u c hpc hop hu =>
    have hexec := (step_of_decodeOpcode_eq_some hr hpc hop (decodeOpcode_opcode i)).symm.trans h
    have hpushes : s.mem.read s.pc.toNat ∈ [0x45#8, 0x50#8] ↔ i.pushes = true := hop ▸ opcode_mem_pushes_iff i
    have hs : (s.fetched i.opcode).status ≠ .faulted := fun hf => nomatch hr.symm.trans hf
    cases i with
    | push =>
      rcases exec_push_faulted hs hexec ht with heq | ⟨hpos, c, heq, hc⟩
      · rw [heq]
        exact ⟨_, rfl, rfl, rfl, rfl, .inl ⟨rfl, rfl, fun _ _ => rfl⟩⟩
      · rw [heq]
        exact ⟨c, rfl, rfl, rfl, rfl, .inr (.inl ⟨hop, State.pushed_sp_succ hpos, rfl, hc⟩)⟩
    | call =>
      rcases exec_call_faulted hs hexec ht with heq | ⟨hpos, ⟨c, heq, hc⟩ | ⟨r, heq⟩⟩
      · rw [heq]
        exact ⟨_, rfl, rfl, rfl, rfl, .inl ⟨rfl, rfl, fun _ _ => rfl⟩⟩
      · rw [heq]
        exact ⟨c, rfl, rfl, rfl, rfl, .inr (.inr (.inl ⟨hop, State.pushed_sp_succ hpos, rfl, hc⟩))⟩
      · rw [heq]
        have hmem : s.called.mem = s.mem.write s.pushed.sp.toNat (BitVec.ofNat 8 (s.pc.toNat + 2)) := by
          rw [toNat_lowByte_pred hpos]
        exact ⟨_, rfl, rfl, rfl, rfl, .inr (.inr (.inr ⟨hop, State.pushed_sp_succ hpos, hmem, r, rfl⟩))⟩
    | ldi | prn | hlt | add | mul | pop | ret =>
      have hsp : u.sp = s.sp := hu.sp_eq_of_not_pushes nofun
      have hmem : u.mem = s.mem := hu.mem_eq_of_not_pushes nofun
      exact ⟨c, by simp [hu.pc_eq], hu.pc_eq, hu.regs_eq, hu.out_eq, .inl ⟨hsp, hmem, fun _ hpush => nomatch hpushes.mp hpush⟩⟩
  | @completed i =>
    exact absurd ht (State.completed_status_ne_faulted (s := s.fetched i.opcode) hr i)

/-- Settles O21: FAULTED is one of the two states in which no step is taken. -/
theorem raiseRecordsAndStops : Obligations.RaiseRecordsAndStops := by
  refine fun s c => ⟨rfl, fun t h => ?_⟩
  obtain rfl := raise_next.mp h
  exact step_of_faulted (State.faultedBy_status s c)

/-- Settles O22, by the table of codes. -/
theorem causeCodes : Obligations.CauseCodes := fun _ _ _ _ _ _ _ => ⟨rfl, rfl, rfl, rfl, rfl, rfl⟩

/-! ### The output (10_state.md R36) -/

theorem opcode_eq_prn_iff (i : Instr) : i.opcode = 0x47#8 ↔ i = .prn := by cases i <;> decide

/-- PRN alone appends to the output. -/
theorem State.effect_out_of_ne_prn (s : State) (hi : i ≠ .prn) : (s.effect i).out = s.out := by
  cases i with
  | prn => exact absurd rfl hi
  | ldi | hlt | add | mul | pop | push | ret | call => rfl

/-- Settles O20: a fault leaves the output, and of the handlers that complete only PRN's appends to it. -/
theorem outGrowsOnlyByPrn : Obligations.OutGrowsOnlyByPrn := by
  intro s t h
  obtain ⟨hr, hout⟩ := stepOutcome_of_next h
  cases hout with
  | noHandler => exact ⟨fun ⟨_, _, hne⟩ => absurd rfl hne, fun _ => rfl⟩
  | raised c _ _ hu => exact ⟨fun ⟨_, _, hne⟩ => absurd rfl hne, fun _ => hu.out_eq⟩
  | @completed i hpc hop hc =>
    have hne := State.completed_status_ne_faulted (s := s.fetched i.opcode) hr i
    rw [hop, opcode_eq_prn_iff]
    refine ⟨fun ⟨_, hi, _⟩ => ?_, fun hnot => ?_⟩
    · subst hi
      rfl
    · exact State.effect_out_of_ne_prn _ fun hi => hnot ⟨hpc, hi, hne⟩

/-! ### How a run ends (40_dispatcher.md R98) -/

/-- One step leads from the first state to the second. -/
abbrev Steps (s t : State) : Prop := step s = .next t

theorem Reaches.reflTransGen (h : Reaches s t) : Relation.ReflTransGen Steps s t := by
  induction h with
  | refl => exact .refl
  | tail _ h ih => exact ih.tail h

/-- A state has at most one next state. -/
theorem steps_rightUnique : Relator.RightUnique Steps := fun _ _ _ h h' => by
  cases h.symm.trans h'
  rfl

theorem not_steps_of_not_running (hs : s.status ≠ .running) (t : State) : ¬Steps s t := fun h => hs (step_next h).1

/-- All states in which a run stops are one: of two states reached, one reaches the other, and neither takes a step. -/
theorem Reaches.eq_of_not_running (ht : Reaches s t) (hu : Reaches s u) (hts : t.status ≠ .running) (hus : u.status ≠ .running) :
    t = u := by
  rcases Relation.ReflTransGen.total_of_right_unique steps_rightUnique ht.reflTransGen hu.reflTransGen with htu | hut
  · exact ((Relation.reflTransGen_iff_eq (not_steps_of_not_running hts)).mp htu).symm
  · exact (Relation.reflTransGen_iff_eq (not_steps_of_not_running hus)).mp hut

/-- A run that does not go on forever reaches HALTED or FAULTED. -/
theorem endsWell_or_endsInFault_of_not_runsForever (h : ¬RunsForever s) : EndsWell s ∨ EndsInFault s := by
  obtain ⟨t, ht⟩ := not_forall.mp h
  obtain ⟨hreach, hne⟩ := Classical.not_imp.mp ht
  cases hs : t.status with
  | running => exact absurd hs hne
  | halted => exact .inl ⟨t, hreach, hs⟩
  | faulted => exact .inr ⟨t, hreach, hs⟩

/-- Settles O51: a run stops in at most one state, and one that goes on forever stops in none. -/
theorem runEndsInExactlyOneWay : Obligations.RunEndsInExactlyOneWay := by
  refine fun s _ => ⟨?_, fun ⟨⟨t, ht, hhalt⟩, u, hu, hfault⟩ => ?_, fun ⟨⟨t, ht, hhalt⟩, hrun⟩ => ?_,
    fun ⟨⟨t, ht, hfault⟩, hrun⟩ => ?_⟩
  · by_cases hrun : RunsForever s
    · exact .inr (.inr hrun)
    · exact (endsWell_or_endsInFault_of_not_runsForever hrun).imp_right .inl
  · obtain rfl := ht.eq_of_not_running hu (by simp [hhalt]) (by simp [hfault])
    cases hhalt.symm.trans hfault
  · cases hhalt.symm.trans (hrun t ht)
  · cases hfault.symm.trans (hrun t ht)

/-! ### The XOR/AND-NOT loop of `subtract` (41_alu.md R111) -/

/-- The bits of `b` are those that are not in `a` and those that are. -/
theorem andNot_add_and (a b : Nat) : andNot a b + (a &&& b) = b := by
  have hturn := xor_add_shiftLeft_and b (a &&& b)
  have hself : b &&& (a &&& b) = a &&& b := by rw [Nat.and_comm a b, ← Nat.and_assoc, Nat.and_self]
  rw [hself] at hturn
  unfold andNot
  omega

/-- One turn of the loop keeps the difference: the XOR is the difference without borrows, the shifted AND-NOT the borrows. -/
theorem xor_add_eq_add_shiftLeft_andNot (a b : Nat) : (a ^^^ b) + b = a + andNot a b <<< 1 := by
  have hsum := xor_add_shiftLeft_and a b
  have hbits := andNot_add_and a b
  omega

/-- The borrows stand above the low bits that `b` has clear. -/
theorem two_pow_succ_dvd_shiftLeft_andNot {k b : Nat} (h : 2 ^ k ∣ b) (a : Nat) : 2 ^ (k + 1) ∣ andNot a b <<< 1 := by
  have hbits : andNot a b <<< 1 + (a &&& b) <<< 1 = b * 2 := by
    have := andNot_add_and a b
    omega
  refine (Nat.dvd_add_left (two_pow_succ_dvd_shiftLeft_and h a)).mp ?_
  rw [hbits, Nat.pow_succ]
  exact Nat.mul_dvd_mul_right h 2

/-- After `k` turns `b` has its low `k` bits clear; once it has as many clear as `a` has bits, it is 0, for it stays at most `a`. -/
theorem subtractLoop_of_le {n k a b : Nat} (hb : 2 ^ k ∣ b) (hle : b ≤ a) (ha : a < 2 ^ (k + n)) :
    subtractLoop n a b = some (a - b) := by
  induction n generalizing k a b with
  | zero =>
    obtain rfl : b = 0 := Nat.eq_zero_of_dvd_of_lt hb (Nat.lt_of_le_of_lt hle ha)
    rfl
  | succ n ih =>
    rw [subtractLoop]
    split
    · simp [‹b = 0›]
    · have hturn := xor_add_eq_add_shiftLeft_andNot a b
      have hxor : a ^^^ b < 2 ^ (k + 1 + n) := by
        rw [Nat.add_assoc, Nat.add_comm 1 n]
        exact Nat.xor_lt_two_pow ha (Nat.lt_of_le_of_lt hle ha)
      rw [ih (two_pow_succ_dvd_shiftLeft_andNot hb a) (by omega) hxor]
      congr 1
      omega

/-- `b` stays above `a`, so it never becomes 0. -/
theorem subtractLoop_of_lt {n a b : Nat} (h : a < b) : subtractLoop n a b = none := by
  have hne : b ≠ 0 := Nat.ne_zero_of_lt h
  induction n generalizing a b with
  | zero => rw [subtractLoop, if_neg hne]
  | succ n ih =>
    have hturn := xor_add_eq_add_shiftLeft_andNot a b
    rw [subtractLoop, if_neg hne]
    exact ih (by omega) (by omega)

/-- Settles O58: the sign of the difference, which every turn keeps, decides whether the loop ends. -/
theorem subtractLoopEndsExactlyWhenNoUnderflow : Obligations.SubtractLoopEndsExactlyWhenNoUnderflow := fun _ _ _ =>
  ⟨fun hle ha => ⟨subtractLoop_of_le (k := 0) (Nat.one_dvd _) hle (by rwa [Nat.zero_add]), subtract_of_le hle⟩,
    fun hlt => ⟨subtractLoop_of_lt hlt, subtract_of_lt hlt⟩⟩

/-! ### The long multiplication (41_alu.md R112) -/

/-- One turn keeps the sum of the partial products so far and the product to go. -/
theorem partial_product_add_mul (r a b : Nat) : (if b.testBit 0 then add r a else r) + (a <<< 1) * (b >>> 1) = r + a * b := by
  have hsplit : a * b = (a <<< 1) * (b >>> 1) + a * (b % 2) := by
    rw [Nat.shiftLeft_eq, Nat.shiftRight_eq_div_pow, Nat.mul_assoc, ← Nat.mul_add, Nat.div_add_mod]
  rw [hsplit, Nat.testBit_zero]
  rcases Nat.mod_two_eq_zero_or_one b with hb | hb
  · simp [hb]
  · simp [hb, Nat.add_assoc, Nat.add_comm a]

/-- Each turn takes one bit of `b`. -/
theorem multiplyLoop_eq {n r a b : Nat} (hb : b < 2 ^ n) : multiplyLoop n r a b = some (r + a * b) := by
  induction n generalizing r a b with
  | zero =>
    obtain rfl : b = 0 := Nat.lt_one_iff.mp hb
    rfl
  | succ n ih =>
    rw [multiplyLoop]
    split
    · simp [‹b = 0›]
    · rw [ih (by omega), partial_product_add_mul]

/-- Settles O59: no partial product has been added at the start. -/
theorem multiplyLoopGivesTheProduct : Obligations.MultiplyLoopGivesTheProduct := fun n a b hb => by
  rw [multiplyLoop_eq hb, Nat.zero_add, multiply_eq]

/-! ### Reset and loading (10_state.md R41, 70_reset_and_hazards.md R191) -/

/-- Settles O2, by the reset state's own equations. -/
theorem resetStatusFaultOutMemory : Obligations.ResetStatusFaultOutMemory :=
  ⟨State.reset_status, State.reset_fault, State.reset_out, State.reset_mem_read, State.reset_ir⟩

/-- Settles O4: the length alone decides whether an image is loaded. -/
theorem loadChangesMemoryOnly : Obligations.LoadChangesMemoryOnly := fun _ =>
  ⟨fun hle => ⟨_, if_pos hle, rfl⟩, fun hlt => if_neg (Nat.not_le.mpr hlt)⟩

/-- Settles O52: the empty memory is canonical, and `pc` and `sp` start at their bounds. -/
theorem invAtReset : Obligations.InvAtReset :=
  Inv.of_fault_eq_none State.reset_mem_wf (Nat.zero_le _) (Nat.le_refl _) State.reset_fault nofun

end Sys2Proof.Machine
end
